-- ==== Sys2Proof/Word.lean ====
section
/-! DEFINITION. The two word types of the block: a byte of memory or of A, X, Y, and a 16-bit word
for PC, SP and addresses (00_scope.md R5, R8). Both wrap modulo their width, as R9 says. -/

namespace Sys2Proof

/-- `DATA_WIDTH` = 8 bits (R5): one byte per address, and the registers A, X, Y. -/
abbrev Byte := BitVec 8

/-- `ADDR_WIDTH` = `PC_WIDTH` = 16 bits (R5). -/
abbrev Word := BitVec 16

end Sys2Proof
end

