-- ==== Sys2Proof/Config.lean ====
section
/-! DEFINITION. What is fixed for the machine: the size of the memory image and the TYPES of the spec's
two named parameters, SP_WIDTH and NEG_BIT (00_scope.md R5). The values this model takes for the two
are in Machine/Params.lean. The spec leaves no value free, so nothing here is opaque. -/

namespace Sys2Proof

/-- `MEM_SIZE` = 65536 bytes (R5, R40). -/
def Config.memSize : Nat := 65536

/-- `SP_WIDTH` (R5, R24): 16 in the spec, 8 as the alternative reading of conflict C1. -/
inductive SpWidth where
  | w16
  | w8
  deriving DecidableEq, Repr

/-- `NEG_BIT` (R5, R100): 7 in the spec, 6 as the as-built reading of conflict C2. -/
inductive NegBit where
  | bit7
  | bit6
  deriving DecidableEq, Repr

/-- The two named parameters of the block (R5). -/
structure Params where
  spWidth : SpWidth
  negBit  : NegBit
  deriving DecidableEq, Repr

end Sys2Proof
end

