-- ==== Sys2Proof/Syntax.lean ====
section
/-! DEFINITION. The instructions, one constructor per row of spec/opcode_table.json, and the parts of an
entry of the opcode map (30_encoding.md R60, R61, R65, R68). -/

namespace Sys2Proof

/-- The instructions of the block (R65, R66): the four entries of the opcode map and the catch-all
row for every other opcode byte. -/
inductive Instr where
  /-- `LDA #imm8`: LoadAccumulator, Immediate (R101). -/
  | ldaImm (imm8 : Byte)
  /-- `LDA zp8`: LoadAccumulator, ZeroPage (R102). -/
  | ldaZp (zp8 : Byte)
  /-- `LDA zp8,X`: LoadAccumulator, ZeroPageX (R103). -/
  | ldaZpX (zp8 : Byte)
  /-- `JSR addr16`: JumpToSubroutine (R120). -/
  | jsr (addr16 : Word)
  /-- Any opcode byte without an entry in the map (R66, R90). -/
  | unknownOpcode (opcode : Byte)
  deriving DecidableEq, Repr

/-- The addressing modes (R2, R62 to R64). -/
inductive AddrMode where
  | immediate
  | zeroPage
  | zeroPageX
  | absolute
  deriving DecidableEq, Repr

/-- The instruction formats of R61. -/
inductive Format where
  | op
  | opImm8
  | opZp8
  | opAbs16
  deriving DecidableEq, Repr

/-- The operation an entry of the opcode map names (R65). -/
inductive Operation where
  | ldaImm
  | ldaZp
  | ldaZpX
  | jsr
  deriving DecidableEq, Repr

/-- An entry of the opcode map: opcode byte, operation, addressing mode, format and the cycle cost,
which describes the charges of the primitives and is never charged again (R65, R68, R71). -/
structure OpcodeEntry where
  opcode    : Byte
  operation : Operation
  mode      : AddrMode
  format    : Format
  cycles    : Nat
  deriving DecidableEq, Repr

end Sys2Proof
end

