-- ==== Sys2Proof/Machine/OpcodeMap.lean ====
section
/-! DEFINITION. The opcode map of 30_encoding.md: the four opcode bytes as named constants in one place
(R65, decision D2; PRESUMED by the spec, unsafe: log entry 10), the table, its lookup, and the length of an
instruction (R61, R67). -/

namespace Sys2Proof

/-- LoadAccumulator Immediate (R65; the byte value is decision D2's). -/
def Opcode.ldaImm : Byte := 0xA9
/-- LoadAccumulator ZeroPage (R65; decision D2). -/
def Opcode.ldaZp : Byte := 0xA5
/-- LoadAccumulator ZeroPageX (R65; decision D2). -/
def Opcode.ldaZpX : Byte := 0xB5
/-- JumpToSubroutine (R65; decision D2). -/
def Opcode.jsr : Byte := 0x20

/-- The bytes an instruction of a format takes (R61). -/
def Format.length : Format → Nat
  | .op => 1
  | .opImm8 => 2
  | .opZp8 => 2
  | .opAbs16 => 3

/-- The opcode map: exactly four entries (R65). -/
def opcodeMap : List OpcodeEntry :=
  [ ⟨Opcode.ldaImm, .ldaImm, .immediate, .opImm8,  2⟩,
    ⟨Opcode.ldaZp,  .ldaZp,  .zeroPage,  .opZp8,   3⟩,
    ⟨Opcode.ldaZpX, .ldaZpX, .zeroPageX, .opZp8,   4⟩,
    ⟨Opcode.jsr,    .jsr,    .absolute,  .opAbs16, 6⟩ ]

/-- The table lookup of R68: the entry of an opcode byte, or none for an unknown opcode. -/
def lookupOpcode (op : Byte) : Option OpcodeEntry :=
  opcodeMap.find? fun e => op == e.opcode

/-- The length of an instruction, a function of its opcode byte alone (R67). -/
def instrLength (op : Byte) : Nat :=
  match lookupOpcode op with
  | some e => e.format.length
  | none => Format.length .op

/-- The cycle cost of an opcode byte: its entry's cost, and 1 for an unknown opcode (R65, R66, R71). -/
def opcodeCycles (op : Byte) : Nat :=
  match lookupOpcode op with
  | some e => e.cycles
  | none => 1

end Sys2Proof
end

