-- ==== Sys2Proof/WellFormed.lean ====
section
/-! DEFINITION. Which terms of Instr stand for an instruction of the block: every operand byte or word is
legal (30_encoding.md R62 to R64), and the catch-all row stands only for a byte that has no entry in the
opcode map (R66). -/

namespace Sys2Proof

/-- The well-formedness check of an instruction (R62 to R66). -/
def wellFormed : Instr → Bool
  | .ldaImm _ => true
  | .ldaZp _ => true
  | .ldaZpX _ => true
  | .jsr _ => true
  | .unknownOpcode op => (lookupOpcode op).isNone

end Sys2Proof
end

