-- ==== Sys2Proof/Decode.lean ====
section
/-! DEFINITION. The byte-order helpers, the decoder (total on any list of bytes, refusing by name) and the
encoder (30_encoding.md R60 to R68; byte order 20_memory.md R45). -/

namespace Sys2Proof

/-- `hi ++ lo` (R8): the low byte is the one at the lower address (R45, R64). -/
def joinBytes (hi lo : Byte) : Word := hi ++ lo

/-- `v[7:0]` (R8). -/
def lowByte (v : Word) : Byte := v.extractLsb' 0 8

/-- `v[15:8]` (R8). -/
def highByte (v : Word) : Byte := v.extractLsb' 8 8

/-- `zext_16(v)` of a byte (R8). -/
def zext16 (v : Byte) : Word := v.setWidth 16

/-- Why a list of bytes is not an instruction. Memory always gives enough bytes, so a step never meets
either of them. -/
inductive DecodeError where
  /-- There is no opcode byte. -/
  | noOpcode
  /-- The opcode byte is there and some of its operand bytes are not. -/
  | missingOperand (opcode : Byte)
  deriving DecidableEq, Repr

/-- What the decoder answers: the instruction with the bytes after it, or a refusal by name. -/
inductive Decoded where
  | instr (i : Instr) (rest : List Byte)
  | refused (e : DecodeError)
  deriving DecidableEq, Repr

/-- The decoder on three bytes: a total table lookup on the opcode byte (R68), the operand bytes taken as
the entry's format says (R61, R62, R64), and the catch-all for a byte with no entry (R66). -/
def decodeBytes (op b1 b2 : Byte) : Instr :=
  match lookupOpcode op with
  | none => .unknownOpcode op
  | some e =>
    match e.operation with
    | .ldaImm => .ldaImm b1
    | .ldaZp => .ldaZp b1
    | .ldaZpX => .ldaZpX b1
    | .jsr => .jsr (joinBytes b2 b1)

/-- The decoder on any list of bytes. -/
def decode : List Byte → Decoded
  | [] => .refused .noOpcode
  | op :: rest =>
    if rest.length + 1 < instrLength op then .refused (.missingOperand op)
    else .instr (decodeBytes op (rest.getD 0 0) (rest.getD 1 0)) (rest.drop (instrLength op - 1))

/-- The bytes of an instruction in address order (R61). -/
def encode : Instr → List Byte
  | .ldaImm imm8 => [Opcode.ldaImm, imm8]
  | .ldaZp zp8 => [Opcode.ldaZp, zp8]
  | .ldaZpX zp8 => [Opcode.ldaZpX, zp8]
  | .jsr addr16 => [Opcode.jsr, lowByte addr16, highByte addr16]
  | .unknownOpcode op => [op]

/-- Byte `k` of a table word: bits `8k+7 .. 8k` of `w` (R61), a bit at or above `nbits` read as 0. -/
def tableByte (nbits w k : Nat) : Byte := BitVec.ofNat 8 ((w % 2 ^ nbits) / 2 ^ (8 * k))

/-- The three bytes a table word stands for: the longest instruction has three (R61). -/
def tableBytes (nbits w : Nat) : List Byte :=
  [tableByte nbits w 0, tableByte nbits w 1, tableByte nbits w 2]

/-- The instruction the decoder reads from a table word of `nbits` bits (`R61` numbers the bits). -/
def decodeTableWord (nbits w : Nat) : Option Instr :=
  match decode (tableBytes nbits w) with
  | .instr i _ => some i
  | .refused _ => none

end Sys2Proof
end

