-- ==== Sys2Proof/Machine/Params.lean ====
section
/-! DEFINITION. The values this model takes for the spec's parameters, reset values and cause codes, in one
place (00_scope.md R5; 10_state.md R38; 60_exceptions.md R140). -/

namespace Sys2Proof.Machine

/-- The spec's choice: `SP_WIDTH = 16` and `NEG_BIT = 7` (R5, decisions D3 and D4; DESIGN CHOICE of the spec,
unsafe: log entry 1). -/
def params : Params := { spWidth := .w16, negBit := .bit7 }

/-- `v mod 2^SP_WIDTH`, held in 16 bits, so that `zext_16(SP)` is the held value itself (R24). -/
def truncSp (w : SpWidth) (v : Word) : Word :=
  match w with
  | .w16 => v
  | .w8 => (v.setWidth 8).setWidth 16

/-- The bit number `NEG_BIT` stands for (R100). -/
def negIndex : NegBit → Nat
  | .bit7 => 7
  | .bit6 => 6

/-- PC after Reset (R38, R160). -/
def resetPc : Word := 0xFFFC

/-- SP after Reset, `0x0100 mod 2^SP_WIDTH` (R38, R160). -/
def resetSp (p : Params) : Word := truncSp p.spWidth 0x0100

/-- The cause code of UnknownOpcode (R140). -/
def codeUnknownOpcode : Nat := 1

/-- The cause code of OutOfRange (R140). -/
def codeOutOfRange : Nat := 2

end Sys2Proof.Machine
end

