-- ==== Sys2Proof/Machine/State.lean ====
section
/-! DEFINITION. The state of the block (10_state.md R20 to R39) as plain data, its faults and refusals, the
host's commands and the block's answers, and the state after reset (R38, R160). -/

namespace Sys2Proof.Machine

/-- The faults of the block, the type the fault latch of R35 holds (`None` is the latch's `none`). -/
inductive Fault where
  /-- `OutOfRange(addr)`: raised by MemRead, MemWrite and WriteWord for an address not in [0, 65536)
  (R42 to R44, R142). It is no stop of the model: the raising step ends in a next state that holds it in
  the latch, as R142 says, so it is safe. -/
  | outOfRange (addr : Nat)
  deriving DecidableEq, Repr

/-- Why the model has no meaning for an instruction. -/
inductive Refusal where
  /-- Raised by an arm of `exec` whose instruction has no meaning yet (safe). No arm raises it now. -/
  | notModelled (mnemonic : String)
  deriving DecidableEq, Repr

/-- The seven status flags, each its own storage bit (R30, R31); there is no packed byte (R33). -/
structure Flags where
  c : Bool
  z : Bool
  i : Bool
  d : Bool
  b : Bool
  v : Bool
  n : Bool
  deriving DecidableEq, Repr

/-- The memory image as its non-zero bytes, by address; an address not listed reads as 0x00, which is what
Reset leaves in every byte (R38, R160). The canonical form is `Memory.wf` of Machine/Memory.lean. -/
abbrev Memory := List Host.Cell

/-- A record of the diagnostic stream: `{code, opcode, address}` (R141). -/
structure DiagRecord where
  code    : Nat
  opcode  : Byte
  address : Word
  deriving DecidableEq, Repr

/-- The names of the flags, for the host's SetReg (R39). -/
inductive FlagName where
  | c | z | i | d | b | v | n
  deriving DecidableEq, Repr

/-- The names SetReg takes: a register of {PC, SP, A, X, Y} or a flag (R39). -/
inductive RegName where
  | pc | sp | a | x | y
  | flag (f : FlagName)
  deriving DecidableEq, Repr

/-- The host's commands (R39). -/
inductive Command where
  | reset
  | writeMem (a : Word) (v : Byte)
  | setReg (r : RegName) (v : Nat)
  | execute (b : Int)
  | readState
  deriving DecidableEq, Repr

/-- How an Execute command ends (R87, R91). -/
inductive Status where
  | done
  | faulted (f : Fault)
  deriving DecidableEq, Repr

/-- What ReadState returns: every register, flag, memory byte and the fault latch (R39). -/
structure Snapshot where
  pc    : Word
  sp    : Word
  a     : Byte
  x     : Byte
  y     : Byte
  flags : Flags
  mem   : Memory
  fault : Option Fault
  deriving DecidableEq, Repr

/-- What the block returns to the host: the pair of an Execute command (R87), or the answer to ReadState
(R39). -/
inductive Response where
  | executed (budget : Int) (status : Status)
  | stateRead (snap : Snapshot)
  deriving DecidableEq, Repr

/-- The state of the block: the tuple of R20, the cycle budget (R34), the diagnostic stream (R36), whether an
Execute command is running (R7, R39), and the two streams between the host and the block, which are the
model's own form of R39's commands (DESIGN CHOICE, safe: log entry 3). -/
structure State where
  pc          : Word
  /-- `zext_16(SP)` (R24). -/
  sp          : Word
  a           : Byte
  x           : Byte
  y           : Byte
  flags       : Flags
  mem         : Memory
  fault       : Option Fault
  budget      : Int
  /-- Oldest record first (R36). -/
  diagnostics : List DiagRecord
  /-- An Execute command has been taken and has not returned. -/
  executing   : Bool
  /-- The host's commands not yet taken, the next one first. -/
  commands    : List Command
  /-- What the block has returned to the host, oldest first. -/
  responses   : List Response
  deriving DecidableEq, Repr

/-- All flags false (R38, R160). -/
def Flags.clear : Flags :=
  { c := false, z := false, i := false, d := false, b := false, v := false, n := false }

/-- The block right after Reset (R38, R160). The budget and the diagnostic stream are not touched by Reset, so
their values here, and those of the host's two streams, are this model's choice (DESIGN CHOICE, unsafe: log
entry 4). -/
def State.reset : State :=
  { pc := resetPc, sp := resetSp params, a := 0, x := 0, y := 0, flags := Flags.clear, mem := [],
    fault := none, budget := 0, diagnostics := [], executing := false, commands := [], responses := [] }

end Sys2Proof.Machine
end

