-- ==== Sys2Proof/Machine/Memory.lean ====
section
/-! DEFINITION. Reading and writing one byte of the memory image, and its canonical form (20_memory.md R40,
R49, R52). -/

namespace Sys2Proof.Machine

/-- What an address the list does not hold reads as: 0x00, the contents Reset leaves (R38, R160). -/
def Memory.blank : Byte := 0

/-- `M[a]`. -/
def Memory.read (m : Memory) (a : Nat) : Byte :=
  match m with
  | [] => Memory.blank
  | (k, v) :: t => if k = a then v else Memory.read t a

/-- Lists `v` at `a`, before the first higher address, in place of what stood there. -/
def Memory.insert (m : Memory) (a : Nat) (v : Byte) : Memory :=
  match m with
  | [] => [(a, v)]
  | (k, w) :: t =>
    if a < k then (a, v) :: (k, w) :: t
    else if a = k then (a, v) :: t
    else (k, w) :: Memory.insert t a v

/-- No entry for `a`. -/
def Memory.erase (m : Memory) (a : Nat) : Memory := m.filter fun c => c.1 ≠ a

/-- `M[a] <- v`. Writing what an unlisted address reads as removes the entry, so equal memories are equal
data. -/
def Memory.write (m : Memory) (a : Nat) (v : Byte) : Memory :=
  if v = Memory.blank then Memory.erase m a else Memory.insert m a v

/-- The canonical form: addresses strictly rising, each below 65536 (R40), and no entry that an unlisted
address would read the same as. -/
abbrev Memory.wf (m : Memory) : Prop :=
  m.Pairwise (fun c d => c.1 < d.1) ∧ ∀ c ∈ m, c.1 < Config.memSize ∧ c.2 ≠ Memory.blank

end Sys2Proof.Machine
end

