-- ==== Sys2Proof/Machine/Ops.lean ====
section
/-! DEFINITION. The operations every meaning is made of: the cycle charge, the bounded memory accesses
(20_memory.md R42 to R44), the fetch primitives (40_fetch_dispatch.md R80 to R82), raising OutOfRange and
emitting a diagnostic (60_exceptions.md R141, R142), and the registers by name (10_state.md R39).

The spec has no trap entry and no return from one (R143, R146): raising OutOfRange saves and changes nothing
but the latch, and only Reset clears it. -/

namespace Sys2Proof.Machine

/-- `budget <- budget - n` (R9, R34). -/
def chargeCycles (n : Nat) (s : State) : State := { s with budget := s.budget - n }

/-! Conditions -/

/-- `raise f` (R11, R142): the one operation that takes the block's one exception. The latch holds the fault;
nothing else changes, no register saves anything and PC goes nowhere (R143). The step that raises ends in a next
state (DEDUCED, safe: log entry 7). -/
def raiseFault (f : Fault) (s : State) : State := { s with fault := some f }

/-- The cause code of a fault (R140). -/
def faultCode : Fault → Nat
  | .outOfRange _ => codeOutOfRange

/-- `emit UnknownOpcode(op, P)` (R11, R141): one record at the end of the diagnostic stream. -/
def emitUnknownOpcode (op : Byte) (address : Word) (s : State) : State :=
  { s with diagnostics := s.diagnostics ++ [⟨codeUnknownOpcode, op, address⟩] }

/-! Memory -/

/-- `M[a]` at a 16-bit address, which is always in range (R46). -/
def State.byteAt (s : State) (a : Word) : Byte := s.mem.read a.toNat

/-- `MemRead(addr, 1)` (R10, R42): the byte, or the fault to raise; a read changes no state. -/
def memRead (addr : Nat) (s : State) : Except Fault Byte :=
  if addr < Config.memSize then .ok (s.mem.read addr) else .error (.outOfRange addr)

/-- `MemWrite(addr, 1, v)` (R10, R43): the byte written, or the fault to raise and nothing written. -/
def memWrite (addr : Nat) (v : Byte) (s : State) : Except Fault State :=
  if addr < Config.memSize then .ok { s with mem := s.mem.write addr v } else .error (.outOfRange addr)

/-- `WriteWord(value, address)` (R44): low byte at `address`, high byte at `address + 1`, 2 cycles. The
higher address does not wrap, and it is checked before either byte is written. -/
def writeWord (value : Word) (address : Nat) (s : State) : Except Fault State :=
  if address + 1 ≥ Config.memSize then .error (.outOfRange (address + 1))
  else
    match memWrite address (lowByte value) s with
    | .error f => .error f
    | .ok s1 =>
      match memWrite (address + 1) (highByte value) s1 with
      | .error f => .error f
      | .ok s2 => .ok (chargeCycles 2 s2)

/-! Fetch primitives -/

/-- What FetchByte does to the state: PC past the byte, modulo 2^16, and 1 cycle (R80, R23). -/
def consumeByte (s : State) : State := chargeCycles 1 { s with pc := s.pc + 1 }

/-- What FetchWord does to the state: PC past both bytes, modulo 2^16, and 2 cycles (R81, R23). -/
def consumeWord (s : State) : State := chargeCycles 2 { s with pc := s.pc + 2 }

/-- `FetchByte()` (R80). -/
def fetchByte (s : State) : Byte × State := (s.byteAt s.pc, consumeByte s)

/-- `FetchWord()` (R81): low byte first; the second address is modulo 2^16. -/
def fetchWord (s : State) : Word × State :=
  (joinBytes (s.byteAt (s.pc + 1)) (s.byteAt s.pc), consumeWord s)

/-- `ReadByte(addr)` (R82). -/
def readByte (addr : Word) (s : State) : Byte × State := (s.byteAt addr, chargeCycles 1 s)

/-- The instruction whose opcode byte is at PC: byte `k` at `(PC + k) mod 2^16` (R61). A read has no side
effect (R49), so reading the longest form's three bytes shows nothing that a shorter form would not. -/
def fetchInstr (s : State) : Instr :=
  decodeBytes (s.byteAt s.pc) (s.byteAt (s.pc + 1)) (s.byteAt (s.pc + 2))

/-! Registers by name -/

/-- One flag written, the others left (R31). -/
def setFlag (f : FlagName) (v : Bool) (fl : Flags) : Flags :=
  match f with
  | .c => { fl with c := v }
  | .z => { fl with z := v }
  | .i => { fl with i := v }
  | .d => { fl with d := v }
  | .b => { fl with b := v }
  | .v => { fl with v := v }
  | .n => { fl with n := v }

/-- A flag by name (R30). -/
def getFlag (f : FlagName) (fl : Flags) : Bool :=
  match f with
  | .c => fl.c
  | .z => fl.z
  | .i => fl.i
  | .d => fl.d
  | .b => fl.b
  | .v => fl.v
  | .n => fl.n

/-- `r <- v` for a register or flag by name; a write of an `N`-bit register takes `v mod 2^N` (R9, R24). -/
def writeReg (p : Params) (r : RegName) (v : Nat) (s : State) : State :=
  match r with
  | .pc => { s with pc := BitVec.ofNat 16 v }
  | .sp => { s with sp := truncSp p.spWidth (BitVec.ofNat 16 v) }
  | .a => { s with a := BitVec.ofNat 8 v }
  | .x => { s with x := BitVec.ofNat 8 v }
  | .y => { s with y := BitVec.ofNat 8 v }
  | .flag f => { s with flags := setFlag f (v % 2 == 1) s.flags }

end Sys2Proof.Machine
end

