-- ==== Sys2Proof/Machine/Operands.lean ====
section
/-! DEFINITION. The address ALU and the three addressing-mode resolvers (40_fetch_dispatch.md R84 to R86,
30_encoding.md R62, R63). Each resolver is the fetch of the operand byte followed by its own part; the
meanings, whose operand byte is already decoded, use that part. -/

namespace Sys2Proof.Machine

/-- The effective address of ZeroPage: `zext_16(zp8)` (R63, R85). -/
def zeroPageAddr (zp8 : Byte) : Word := zext16 zp8

/-- The effective address of ZeroPageX: `zext_16((zp8 + X) mod 256)`; the carry out is dropped and sets no
flag (R63, R86). -/
def zeroPageXAddr (zp8 x : Byte) : Word := zext16 (zp8 + x)

/-- ZeroPage after its operand byte is fetched: one ReadByte (R85). -/
def zeroPageOperand (zp8 : Byte) (s : State) : Byte × State := readByte (zeroPageAddr zp8) s

/-- ZeroPageX after its operand byte is fetched: the indexing cycle, then one ReadByte (R86). -/
def zeroPageXOperand (zp8 : Byte) (s : State) : Byte × State :=
  readByte (zeroPageXAddr zp8 s.x) (chargeCycles 1 s)

/-- `ResolveImmediate()` (R84). -/
def resolveImmediate (s : State) : Byte × State := fetchByte s

/-- `ResolveZeroPage()` (R85). -/
def resolveZeroPage (s : State) : Byte × State := zeroPageOperand (fetchByte s).1 (fetchByte s).2

/-- `ResolveZeroPageX()` (R86). -/
def resolveZeroPageX (s : State) : Byte × State := zeroPageXOperand (fetchByte s).1 (fetchByte s).2

end Sys2Proof.Machine
end

