-- ==== Sys2Proof/Machine/Flags.lean ====
section
/-! DEFINITION. The one flag computation of the block: Z and N after a load (41_load.md R100). -/

namespace Sys2Proof.Machine

/-- `UpdateZN()` (R100): Z and N from A as it stands; C, I, D, B, V stay. -/
def updateZN (p : Params) (s : State) : State :=
  { s with flags := { s.flags with z := s.a == 0, n := s.a.getLsbD (negIndex p.negBit) } }

end Sys2Proof.Machine
end

