-- ==== Sys2Proof/Machine/Load.lean ====
section
/-! DEFINITION. LoadAccumulator in its three modes (41_load.md R101 to R103). -/

namespace Sys2Proof.Machine

/-- `A <- v`, then `UpdateZN()` (R101 to R103). -/
def loadA (p : Params) (v : Byte) (s : State) : State := updateZN p { s with a := v }

/-- `LDA #imm8` (R101): opcode fetch, operand fetch, then the load. -/
def execLdaImm (imm8 : Byte) (s : State) : Host.Outcome State Fault Refusal :=
  .next (loadA params imm8 (consumeByte (consumeByte s)))

/-- `LDA zp8` (R102): opcode fetch, operand fetch, one ReadByte, then the load. -/
def execLdaZp (zp8 : Byte) (s : State) : Host.Outcome State Fault Refusal :=
  let r := zeroPageOperand zp8 (consumeByte (consumeByte s))
  .next (loadA params r.1 r.2)

/-- `LDA zp8,X` (R103): opcode fetch, operand fetch, the indexing cycle, one ReadByte, then the load. -/
def execLdaZpX (zp8 : Byte) (s : State) : Host.Outcome State Fault Refusal :=
  let r := zeroPageXOperand zp8 (consumeByte (consumeByte s))
  .next (loadA params r.1 r.2)

end Sys2Proof.Machine
end

