-- ==== Sys2Proof/Machine/Subroutine.lean ====
section
/-! DEFINITION. JumpToSubroutine and the stack push (42_subroutine.md R120 to R122). -/

namespace Sys2Proof.Machine

/-- JumpToSubroutine after its target is fetched (R120): the return address `PC - 1` (R121) pushed at
`zext_16(SP)`, SP up by 1 modulo 2^SP_WIDTH (R122), PC to the target, the extra cycle. When WriteWord raises
OutOfRange the rest is not performed (R142): nothing is written, SP, PC and the budget stay. -/
def callSubroutine (p : Params) (target : Word) (s : State) : State :=
  match writeWord (s.pc - 1) s.sp.toNat s with
  | .error f => raiseFault f s
  | .ok s1 => chargeCycles 1 { s1 with sp := truncSp p.spWidth (s1.sp + 1), pc := target }

/-- `JSR addr16` (R120): opcode fetch, word fetch, then the call. -/
def execJsr (addr16 : Word) (s : State) : Host.Outcome State Fault Refusal :=
  .next (callSubroutine params addr16 (consumeWord (consumeByte s)))

end Sys2Proof.Machine
end

