-- ==== Sys2Proof/Machine/Unknown.lean ====
section
/-! DEFINITION. An opcode byte with no entry in the opcode map (40_fetch_dispatch.md R90). -/

namespace Sys2Proof.Machine

/-- Unknown opcode (R90, R141): the opcode fetch, and one record with the byte and the address it was fetched
from. Execution goes on. -/
def execUnknownOpcode (opcode : Byte) (s : State) : Host.Outcome State Fault Refusal :=
  .next (emitUnknownOpcode opcode s.pc (consumeByte s))

end Sys2Proof.Machine
end

