-- ==== Sys2Proof/Machine/Dispatch.lean ====
section
/-! DEFINITION. The instruction dispatch (30_encoding.md R68, 40_fetch_dispatch.md R89): one arm per
constructor of Instr. -/

namespace Sys2Proof.Machine

/-- The effect of one whole instruction, its opcode fetch included, on the state before that fetch (R89). -/
def exec (i : Instr) (s : State) : Host.Outcome State Fault Refusal :=
  match i with
  | .ldaImm imm8 => Sys2Proof.Machine.execLdaImm imm8 s
  | .ldaZp zp8 => Sys2Proof.Machine.execLdaZp zp8 s
  | .ldaZpX zp8 => Sys2Proof.Machine.execLdaZpX zp8 s
  | .jsr addr16 => Sys2Proof.Machine.execJsr addr16 s
  | .unknownOpcode opcode => Sys2Proof.Machine.execUnknownOpcode opcode s

end Sys2Proof.Machine
end

