-- ==== Sys2Proof/Machine/Execute.lean ====
section
/-! DEFINITION. The Execute command's loop, one iteration at a time, and the host's commands
(40_fetch_dispatch.md R87 to R94; 10_state.md R39; 70_reset_and_hazards.md R160). -/

namespace Sys2Proof.Machine

/-! The Execute loop -/

/-- The test at an instruction boundary (R87, R88): no fault latched and budget above 0. -/
abbrev State.loopContinues (s : State) : Prop := s.fault = none ∧ 0 < s.budget

/-- How an Execute command that ends here has ended (R87, R91). -/
def exitStatus (s : State) : Status :=
  match s.fault with
  | some f => .faulted f
  | none => .done

/-- The Execute command returns its budget and status (R87, R91). -/
def finishExecute (s : State) : State :=
  { s with executing := false, responses := s.responses ++ [.executed s.budget (exitStatus s)] }

/-- One turn of a running Execute command: a whole instruction, or the command's end (R87 to R89). -/
def executeTurn (s : State) : Host.Outcome State Fault Refusal :=
  if s.loopContinues then exec (fetchInstr s) s else .next (finishExecute s)

/-! The host's commands -/

/-- `Reset()` (R160): one atomic command (R161). The budget and the diagnostic stream stay. -/
def hostReset (p : Params) (s : State) : State :=
  { s with
    pc := resetPc, sp := resetSp p, a := 0, x := 0, y := 0, flags := Flags.clear, mem := [], fault := none }

/-- `WriteMem(a, v)` (R39). -/
def hostWriteMem (a : Word) (v : Byte) (s : State) : State := { s with mem := s.mem.write a.toNat v }

/-- The start of `Execute(b)` (R87): the budget loaded; the loop's test comes at the next turn, for a latched
fault too (DESIGN CHOICE, safe: log entry 6). -/
def startExecute (b : Int) (s : State) : State := { s with budget := b, executing := true }

/-- What `ReadState()` returns (R39). -/
def State.snapshot (s : State) : Snapshot :=
  { pc := s.pc, sp := s.sp, a := s.a, x := s.x, y := s.y, flags := s.flags, mem := s.mem, fault := s.fault }

/-- `ReadState()` (R39): the answer goes to the host and nothing else changes. -/
def hostReadState (s : State) : State := { s with responses := s.responses ++ [.stateRead s.snapshot] }

/-- A host command's effect (R39). -/
def runCommand (c : Command) (s : State) : State :=
  match c with
  | .reset => hostReset params s
  | .writeMem a v => hostWriteMem a v s
  | .setReg r v => writeReg params r v s
  | .execute b => startExecute b s
  | .readState => hostReadState s

/-- One turn of an idle block: the host's next command, or nothing (R39, R153). -/
def hostTurn (s : State) : Host.Outcome State Fault Refusal :=
  match s.commands with
  | [] => .next s
  | c :: cs => .next (runCommand c { s with commands := cs })

/-! Placing an instruction for the next step -/

/-- The three bytes of a table word stored from PC on, byte `k` at `(PC + k) mod 2^16` (R61). -/
def placeBytes (nbits w : Nat) (s : State) : State :=
  hostWriteMem (s.pc + 2) (tableByte nbits w 2)
    (hostWriteMem (s.pc + 1) (tableByte nbits w 1) (hostWriteMem s.pc (tableByte nbits w 0) s))

/-- A running Execute command at an instruction boundary: no fault latched, a budget of at least 1 (R87). -/
def openLoop (s : State) : State :=
  { s with executing := true, fault := none, budget := if 0 < s.budget then s.budget else 1 }

end Sys2Proof.Machine
end

