-- ==== Sys2Proof/Machine/Step.lean ====
section
/-! DEFINITION. One step of the block: a turn of the running Execute command, or, between commands, the host's
next command (00_scope.md R6, R7; 10_state.md R39). -/

namespace Sys2Proof.Machine

/-- One step. The host acts only between commands (R7, R39): while an Execute command runs, the step is the
loop's. -/
def step (s : State) : Host.Outcome State Fault Refusal :=
  if s.executing then executeTurn s else hostTurn s

/-- `s` with the table word's bytes at PC and an Execute command running, so that the next step runs exactly
that instruction (DESIGN CHOICE, unsafe: log entry 5). -/
def State.withFetchWord (s : State) (nbits w : Nat) : State := openLoop (placeBytes nbits w s)

end Sys2Proof.Machine
end

