-- ==== Sys2Proof/Machine/Reference.lean ====
section
/-! DEFINITION. The spec's own procedures transcribed as they are written, one primitive after another: the body
of each instruction (41_load.md R101 to R103, 42_subroutine.md R120), Step (40_fetch_dispatch.md R89) and
Execute (R87). The machine decodes a whole instruction first and then runs it; statements say that the two
agree. -/

namespace Sys2Proof.Machine.Reference

/-- `Exec_LDA_IMM()` (R101). -/
def execLdaImm (p : Params) (s : State) : State :=
  let r := resolveImmediate s
  loadA p r.1 r.2

/-- `Exec_LDA_ZP()` (R102). -/
def execLdaZp (p : Params) (s : State) : State :=
  let r := resolveZeroPage s
  loadA p r.1 r.2

/-- `Exec_LDA_ZPX()` (R103). -/
def execLdaZpX (p : Params) (s : State) : State :=
  let r := resolveZeroPageX s
  loadA p r.1 r.2

/-- `Exec_JSR()` (R120). -/
def execJsr (p : Params) (s : State) : State :=
  let r := fetchWord s
  callSubroutine p r.1 r.2

/-- The case of `Step()` on the opcode byte (R89), `address` being the opcode's address. -/
def dispatch (p : Params) (op : Byte) (address : Word) (s : State) : State :=
  if op = 0xA9 then execLdaImm p s
  else if op = 0xA5 then execLdaZp p s
  else if op = 0xB5 then execLdaZpX p s
  else if op = 0x20 then execJsr p s
  else emitUnknownOpcode op address s

/-- `Step()` (R89): the opcode byte is fetched, and the case on its value fetches what it needs. -/
def step (p : Params) (s : State) : State := dispatch p (fetchByte s).1 s.pc (fetchByte s).2

/-- The while loop of `Execute` (R87), with a bound on its iterations so that the recursion is structural. -/
def executeLoop (p : Params) : Nat → State → State
  | 0, s => s
  | n + 1, s => if s.loopContinues then executeLoop p n (step p s) else s

/-- `Execute(b)` (R87): the state it leaves. Every iteration lowers the budget by at least 1, so `max(b, 0)`
iterations are enough (R92). It returns that state's budget and `exitStatus`. -/
def execute (p : Params) (b : Int) (s : State) : State := executeLoop p b.toNat { s with budget := b }

end Sys2Proof.Machine.Reference
end

