-- ==== Sys2Proof/Safety.lean ====
section
/-! DEFINITION. What counts as a safe state and a safe run, and the invariant of the block, in the terms the
statements use. -/

namespace Sys2Proof.Machine

/-- The one OutOfRange the block can raise (20_memory.md R46): WriteWord's second byte at 0x10000. -/
def stackTopFault : Fault := .outOfRange 0x10000

/-- A state no condition has stopped: the latch is empty (10_state.md R35). -/
abbrev State.safe (s : State) : Prop := s.fault = none

/-- `k` steps from `s` all answer a next state, and the last is safe. -/
def SafeRun (k : Nat) (s : State) : Prop :=
  ∃ t, Sys2Proof.core.run k s = Host.Outcome.next t ∧ State.safe t

/-- The latch is empty or holds the one reachable fault (R46). -/
abbrev legalLatch (f : Option Fault) : Prop := f = none ∨ f = some stackTopFault

/-- A record the block can have emitted: code 1, and an opcode byte with no entry (R140, R141). -/
abbrev legalRecord (r : DiagRecord) : Prop := r.code = 1 ∧ lookupOpcode r.opcode = none

/-- A response the block can have given: a fault is the one reachable fault, Done comes with a budget of at
most 0 (R91), and a memory image read is canonical. -/
def legalResponse : Response → Prop
  | .executed b .done => b ≤ 0
  | .executed _ (.faulted f) => f = stackTopFault
  | .stateRead snap => Memory.wf snap.mem ∧ legalLatch snap.fault

/-- The invariant of the block: memory in its canonical form, the latch legal, and everything the block has
sent out legal. -/
structure State.Inv (s : State) : Prop where
  memory      : Memory.wf s.mem
  latch       : legalLatch s.fault
  diagnostics : ∀ r ∈ s.diagnostics, legalRecord r
  responses   : ∀ r ∈ s.responses, legalResponse r

end Sys2Proof.Machine
end

