-- ==== Sys2Proof/Certificates/Slice0/Obligations.lean ====
section
/-! DEFINITION. The statements about the model. Each says which rule of spec/ it formalises; none is proved
here. -/

open Sys2Proof Sys2Proof.Machine

/-! Encoding (30_encoding.md) -/

/-- R61, R62, R64, R65: every well-formed instruction, with every operand, decodes from its own bytes, whatever
bytes follow. -/
def Obligations.DecodeOfEncodeIsIdentity : Prop :=
  ∀ (i : Instr) (rest : List Byte), wellFormed i = true → decode (encode i ++ rest) = .instr i rest

/-- R66, R68: what the decoder accepts is a well-formed instruction, and its bytes are the ones encoding gives. -/
def Obligations.EncodeOfDecodeIsIdentity : Prop :=
  ∀ (bs : List Byte) (i : Instr) (rest : List Byte), decode bs = .instr i rest →
    wellFormed i = true ∧ encode i ++ rest = bs

/-- R68 (with R65, R66): the decoder is a total function from the opcode byte to one of five outcomes. -/
def Obligations.DecoderHasFiveOutcomes : Prop :=
  ∀ op b1 b2 : Byte,
    (op = 0xA9 → decodeBytes op b1 b2 = .ldaImm b1) ∧
    (op = 0xA5 → decodeBytes op b1 b2 = .ldaZp b1) ∧
    (op = 0xB5 → decodeBytes op b1 b2 = .ldaZpX b1) ∧
    (op = 0x20 → ∃ a : Word, decodeBytes op b1 b2 = .jsr a ∧ a.toNat = b2.toNat * 256 + b1.toNat) ∧
    (op ≠ 0xA9 → op ≠ 0xA5 → op ≠ 0xB5 → op ≠ 0x20 → decodeBytes op b1 b2 = .unknownOpcode op)

/-- R67: the length is a function of the opcode byte alone: 2 bytes for 0xA9, 0xA5, 0xB5, 3 for 0x20, 1 for
every other value; the decoder needs that many bytes, no more and no fewer. -/
def Obligations.LengthFollowsOpcodeByte : Prop :=
  ∀ (op : Byte) (operands : List Byte), ∃ n : Nat,
    ((op = 0xA9 ∨ op = 0xA5 ∨ op = 0xB5) → n = 2) ∧ (op = 0x20 → n = 3) ∧
    ((op ≠ 0xA9 ∧ op ≠ 0xA5 ∧ op ≠ 0xB5 ∧ op ≠ 0x20) → n = 1) ∧
    (operands.length + 1 < n → decode (op :: operands) = .refused (.missingOperand op)) ∧
    (n ≤ operands.length + 1 → ∃ i : Instr, decode (op :: operands) = .instr i ((op :: operands).drop n) ∧
      encode i = (op :: operands).take n)

/-- R65: the opcode map has exactly four entries, no two share a byte, and looking a byte up gives the entry that
has it. -/
def Obligations.OpcodeMapIsUnambiguous : Prop :=
  opcodeMap.length = 4 ∧ opcodeMap.Pairwise (fun d e => d.opcode ≠ e.opcode) ∧
  ∀ (op : Byte) (e : OpcodeEntry), lookupOpcode op = some e ↔ e ∈ opcodeMap ∧ e.opcode = op

/-- R61, R65: a few words written out from the encodings, bit 0 of the opcode byte first. -/
def Obligations.SampleWordsDecode : Prop :=
  decodeTableWord 16 0b1000010010101001 = some (.ldaImm 0x84) ∧
  decodeTableWord 16 0b0001000010100101 = some (.ldaZp 0x10) ∧
  decodeTableWord 16 0b1111111010110101 = some (.ldaZpX 0xFE) ∧
  decodeTableWord 24 0b000100100011010000100000 = some (.jsr 0x1234) ∧
  decodeTableWord 8 0b11111111 = some (.unknownOpcode 0xFF) ∧
  decodeTableWord 8 0b00000000 = some (.unknownOpcode 0x00)

/-! Memory (20_memory.md) -/

/-- R42: MemRead returns the byte in range and raises OutOfRange of the address otherwise. -/
def Obligations.MemReadIsBoundsChecked : Prop :=
  ∀ (addr : Nat) (s : State),
    (addr < 65536 → memRead addr s = .ok (s.mem.read addr)) ∧
    (65536 ≤ addr → memRead addr s = .error (.outOfRange addr))

/-- R43: MemWrite in range sets that byte and changes nothing else; out of range it raises and writes nothing. -/
def Obligations.MemWriteChangesOneByte : Prop :=
  ∀ (addr : Nat) (v : Byte) (s : State),
    (addr < 65536 → ∃ t, memWrite addr v s = .ok t ∧ { t with mem := s.mem } = s ∧
      ∀ b, t.mem.read b = if b = addr then v else s.mem.read b) ∧
    (65536 ≤ addr → memWrite addr v s = .error (.outOfRange addr))

/-- R44: WriteWord checks both addresses first; then the low byte goes to `address`, the high byte to
`address + 1`, and 2 cycles are charged. -/
def Obligations.WriteWordIsLittleEndianAndChecked : Prop :=
  ∀ (value : Word) (address : Nat) (s : State),
    (65536 ≤ address + 1 → writeWord value address s = .error (.outOfRange (address + 1))) ∧
    (address + 1 < 65536 → ∃ t, writeWord value address s = .ok t ∧
      { t with mem := s.mem } = { s with budget := s.budget - 2 } ∧
      ∀ b, (t.mem.read b).toNat =
        if b = address then value.toNat % 256
        else if b = address + 1 then value.toNat / 256
        else (s.mem.read b).toNat)

/-- R40, R52 (the model's canonical form, log entry 2): a write of one byte in range keeps the form, and two
images in that form that read alike everywhere are equal data. -/
def Obligations.MemoryFormIsCanonical : Prop :=
  (∀ (m : Memory) (a : Nat) (v : Byte), m.wf → a < 65536 → (m.write a v).wf) ∧
  ∀ m n : Memory, m.wf → n.wf → (∀ a, a < 65536 → m.read a = n.read a) → m = n

/-- R52: a read gives the most recent write to its address, whatever was written elsewhere after it. -/
def Obligations.ReadGivesMostRecentWrite : Prop :=
  ∀ (m : Memory) (a : Nat) (v : Byte) (later : List (Nat × Byte)), (∀ w ∈ later, w.1 ≠ a) →
    (later.foldl (fun m w => m.write w.1 w.2) (m.write a v)).read a = v

/-! Fetch unit and addressing modes (40_fetch_dispatch.md) -/

/-- R80: FetchByte returns the byte at PC, PC goes up by 1 modulo 2^16, 1 cycle, and it cannot fault. -/
def Obligations.FetchByteRule : Prop :=
  ∀ s : State, memRead s.pc.toNat s = .ok (fetchByte s).1 ∧
    (fetchByte s).2.pc.toNat = (s.pc.toNat + 1) % 65536 ∧
    (fetchByte s).2.budget = s.budget - 1 ∧
    { (fetchByte s).2 with pc := s.pc, budget := s.budget } = s

/-- R81: FetchWord reads the low byte at PC and the high byte at PC + 1 modulo 2^16, PC goes up by 2 modulo
2^16, 2 cycles, and it cannot fault. -/
def Obligations.FetchWordRule : Prop :=
  ∀ s : State,
    (fetchWord s).1.toNat =
      (s.mem.read ((s.pc.toNat + 1) % 65536)).toNat * 256 + (s.mem.read s.pc.toNat).toNat ∧
    (fetchWord s).2.pc.toNat = (s.pc.toNat + 2) % 65536 ∧
    (fetchWord s).2.budget = s.budget - 2 ∧
    { (fetchWord s).2 with pc := s.pc, budget := s.budget } = s

/-- R82: ReadByte returns the byte at the address without touching PC, 1 cycle. -/
def Obligations.ReadByteRule : Prop :=
  ∀ (addr : Word) (s : State), memRead addr.toNat s = .ok (readByte addr s).1 ∧
    (readByte addr s).2 = { s with budget := s.budget - 1 }

/-- R63: the zero-page effective addresses, the indexed sum wrapping at 8 bits; both below 0x0100. -/
def Obligations.ZeroPageAddressWraps : Prop :=
  ∀ zp8 x : Byte,
    (zeroPageAddr zp8).toNat = zp8.toNat ∧ (zeroPageAddr zp8).toNat < 256 ∧
    (zeroPageXAddr zp8 x).toNat = (zp8.toNat + x.toNat) % 256 ∧ (zeroPageXAddr zp8 x).toNat < 256

/-- R84, R85, R86: the three resolvers: the operand's value, and 1, 2 and 3 cycles with PC past one byte. -/
def Obligations.AddressingModeResolvers : Prop :=
  ∀ s : State, ∃ zp8 : Byte, zp8 = s.mem.read s.pc.toNat ∧
    resolveImmediate s = (zp8, { s with pc := s.pc + 1, budget := s.budget - 1 }) ∧
    resolveZeroPage s =
      (s.mem.read zp8.toNat, { s with pc := s.pc + 1, budget := s.budget - 2 }) ∧
    resolveZeroPageX s =
      (s.mem.read ((zp8.toNat + s.x.toNat) % 256), { s with pc := s.pc + 1, budget := s.budget - 3 })

/-! Loads (41_load.md) -/

/-- R100: Z says whether A is zero, N is the bit NEG_BIT of A, for both values of the parameter; C, I, D, B, V
and everything else stay. That the machine's own NEG_BIT is 7 is log entry 1 (decision D4). -/
def Obligations.UpdateZNRule : Prop :=
  params.negBit = .bit7 ∧
  ∀ (p : Params) (s : State), ∃ z n : Bool,
    updateZN p s = { s with flags := { s.flags with z := z, n := n } } ∧
    (z = true ↔ s.a.toNat = 0) ∧
    (p.negBit = .bit7 → (n = true ↔ s.a.toNat / 128 % 2 = 1)) ∧
    (p.negBit = .bit6 → (n = true ↔ s.a.toNat / 64 % 2 = 1))

/-- R101: LDA #imm8 answers the next state with A, Z, N, PC + 2 and 2 cycles, and nothing else changed. -/
def Obligations.LdaImmediateResult : Prop :=
  ∀ (imm8 : Byte) (s : State), exec (.ldaImm imm8) s = .next { s with
    pc := s.pc + 2, a := imm8, budget := s.budget - 2,
    flags := { s.flags with z := decide (imm8 = 0), n := decide (128 ≤ imm8.toNat) } }

/-- R102: LDA zp8 loads `M[zext_16(zp8)]`; PC + 2, 3 cycles, and nothing else changed. -/
def Obligations.LdaZeroPageResult : Prop :=
  ∀ (zp8 : Byte) (s : State), exec (.ldaZp zp8) s = .next { s with
    pc := s.pc + 2, a := s.mem.read zp8.toNat, budget := s.budget - 3,
    flags := { s.flags with
      z := decide (s.mem.read zp8.toNat = 0), n := decide (128 ≤ (s.mem.read zp8.toNat).toNat) } }

/-- R103: LDA zp8,X loads `M[(zp8 + X) mod 256]`; PC + 2, 4 cycles, and nothing else changed. -/
def Obligations.LdaZeroPageXResult : Prop :=
  ∀ (zp8 : Byte) (s : State), ∃ v : Byte, v = s.mem.read ((zp8.toNat + s.x.toNat) % 256) ∧
    exec (.ldaZpX zp8) s = .next { s with
      pc := s.pc + 2, a := v, budget := s.budget - 4,
      flags := { s.flags with z := decide (v = 0), n := decide (128 ≤ v.toNat) } }

/-- R29, R32 (frame of the three loads): only A, PC, Z, N and the budget may change; every byte of memory reads
as before. -/
def Obligations.LoadFrame : Prop :=
  ∀ (i : Instr) (s t : State), (∃ b, i = .ldaImm b ∨ i = .ldaZp b ∨ i = .ldaZpX b) → exec i s = .next t →
    t.sp = s.sp ∧ t.x = s.x ∧ t.y = s.y ∧
    t.flags.c = s.flags.c ∧ t.flags.i = s.flags.i ∧ t.flags.d = s.flags.d ∧ t.flags.b = s.flags.b ∧
    t.flags.v = s.flags.v ∧ t.fault = s.fault ∧ t.diagnostics = s.diagnostics ∧
    t.executing = s.executing ∧ t.commands = s.commands ∧ t.responses = s.responses ∧
    ∀ a, t.mem.read a = s.mem.read a

/-- R101 at the level of a step: with 0xA9 at PC, A takes the byte at PC + 1 modulo 2^16. -/
def Obligations.StepLdaImmediate : Prop :=
  ∀ s : State, s.executing = true → s.fault = none → 0 < s.budget → s.mem.read s.pc.toNat = 0xA9 →
    ∃ v : Byte, v = s.mem.read ((s.pc.toNat + 1) % 65536) ∧
      step s = .next { s with
        pc := s.pc + 2, a := v, budget := s.budget - 2,
        flags := { s.flags with z := decide (v = 0), n := decide (128 ≤ v.toNat) } }

/-- R102 at the level of a step: with 0xA5 at PC, A takes `M[M[PC + 1]]`. -/
def Obligations.StepLdaZeroPage : Prop :=
  ∀ s : State, s.executing = true → s.fault = none → 0 < s.budget → s.mem.read s.pc.toNat = 0xA5 →
    ∃ v : Byte, v = s.mem.read (s.mem.read ((s.pc.toNat + 1) % 65536)).toNat ∧
      step s = .next { s with
        pc := s.pc + 2, a := v, budget := s.budget - 3,
        flags := { s.flags with z := decide (v = 0), n := decide (128 ≤ v.toNat) } }

/-- R103 at the level of a step: with 0xB5 at PC, A takes `M[(M[PC + 1] + X) mod 256]`. -/
def Obligations.StepLdaZeroPageX : Prop :=
  ∀ s : State, s.executing = true → s.fault = none → 0 < s.budget → s.mem.read s.pc.toNat = 0xB5 →
    ∃ v : Byte,
      v = s.mem.read (((s.mem.read ((s.pc.toNat + 1) % 65536)).toNat + s.x.toNat) % 256) ∧
      step s = .next { s with
        pc := s.pc + 2, a := v, budget := s.budget - 4,
        flags := { s.flags with z := decide (v = 0), n := decide (128 ≤ v.toNat) } }

/-! Subroutine call (42_subroutine.md) -/

/-- R120, below the top of memory: JSR answers the next state with PC at the target, SP up by 1, 6 cycles, the
return address `PC + 2` at SP and SP + 1, and nothing else changed. -/
def Obligations.JsrResult : Prop :=
  ∀ (addr16 : Word) (s : State), s.sp ≠ 0xFFFF → ∃ t, exec (.jsr addr16) s = .next t ∧
    { t with mem := s.mem } = { s with pc := addr16, sp := s.sp + 1, budget := s.budget - 6 } ∧
    ∀ b, (t.mem.read b).toNat =
      if b = s.sp.toNat then (s.pc.toNat + 2) % 65536 % 256
      else if b = s.sp.toNat + 1 then (s.pc.toNat + 2) % 65536 / 256
      else (s.mem.read b).toNat

/-- R120, R142 at the top of memory: JSR raises OutOfRange(0x10000): the latch, PC past the operands and 3
cycles, and nothing else. -/
def Obligations.JsrFaultsAtTopOfMemory : Prop :=
  ∀ (addr16 : Word) (s : State), s.sp = 0xFFFF → exec (.jsr addr16) s = .next { s with
    pc := s.pc + 3, budget := s.budget - 3, fault := some (.outOfRange 0x10000) }

/-- R120 at the level of a step: with 0x20 at PC, the target is `M[PC + 2] ++ M[PC + 1]`, read before the
return address is written. -/
def Obligations.StepJsr : Prop :=
  ∀ s : State, s.executing = true → s.fault = none → 0 < s.budget → s.mem.read s.pc.toNat = 0x20 →
    s.sp ≠ 0xFFFF → ∃ (target : Word) (t : State), step s = .next t ∧
      target.toNat = (s.mem.read ((s.pc.toNat + 2) % 65536)).toNat * 256 +
        (s.mem.read ((s.pc.toNat + 1) % 65536)).toNat ∧
      { t with mem := s.mem } = { s with pc := target, sp := s.sp + 1, budget := s.budget - 6 } ∧
      ∀ b, (t.mem.read b).toNat =
        if b = s.sp.toNat then (s.pc.toNat + 2) % 65536 % 256
        else if b = s.sp.toNat + 1 then (s.pc.toNat + 2) % 65536 / 256
        else (s.mem.read b).toNat

/-- R170 (with R120, R142): a faulting JSR charges 3 cycles and the fault ends the command, which returns the
lowered budget and the fault (the list of responses is the model's choice, log entry 3). -/
def Obligations.JsrFaultEndsTheCommand : Prop :=
  ∀ s : State, s.executing = true → s.fault = none → 0 < s.budget → s.mem.read s.pc.toNat = 0x20 →
    s.sp = 0xFFFF → Sys2Proof.core.run 2 s = Host.Outcome.next { s with
      pc := s.pc + 3, budget := s.budget - 3, fault := some (.outOfRange 0x10000), executing := false,
      responses := s.responses ++ [.executed (s.budget - 3) (.faulted (.outOfRange 0x10000))] }

/-- R124 (frame of JSR, both outcomes): A, X, Y and the flags are preserved, and every byte outside the two the
push stores to, at SP and SP + 1, reads as before; at SP = 0xFFFF every byte does. -/
def Obligations.JsrFrame : Prop :=
  ∀ (addr16 : Word) (s t : State), exec (.jsr addr16) s = .next t →
    t.a = s.a ∧ t.x = s.x ∧ t.y = s.y ∧ t.flags = s.flags ∧ t.diagnostics = s.diagnostics ∧
    t.executing = s.executing ∧ t.commands = s.commands ∧ t.responses = s.responses ∧
    (s.sp ≠ 0xFFFF → t.fault = s.fault ∧
      ∀ a, a ≠ s.sp.toNat → a ≠ s.sp.toNat + 1 → t.mem.read a = s.mem.read a) ∧
    (s.sp = 0xFFFF → t.sp = s.sp ∧ ∀ a, t.mem.read a = s.mem.read a)

/-- R121: the two bytes the call writes are the little-endian encoding of the opcode address + 2. -/
def Obligations.ReturnAddressIsPlusTwo : Prop :=
  ∀ (addr16 : Word) (s : State), s.sp ≠ 0xFFFF → ∃ t, exec (.jsr addr16) s = .next t ∧
    joinBytes (t.mem.read (s.sp.toNat + 1)) (t.mem.read s.sp.toNat) = s.pc + 2

/-- R122: two calls with no return between them overlap by one byte: the second call's low byte stands where the
first call's high byte was. -/
def Obligations.NestedCallsOverlap : Prop :=
  ∀ (a b : Word) (s : State), s.sp.toNat < 65534 → ∃ t u, exec (.jsr a) s = .next t ∧
    exec (.jsr b) t = .next u ∧ u.sp = s.sp + 2 ∧
    t.mem.read (s.sp.toNat + 1) = highByte (s.pc + 2) ∧
    u.mem.read s.sp.toNat = lowByte (s.pc + 2) ∧
    u.mem.read (s.sp.toNat + 1) = lowByte (a + 2) ∧
    u.mem.read (s.sp.toNat + 2) = highByte (a + 2)

/-- R24, R120 for both values of SP_WIDTH: from any SP the width can hold, the call leaves SP + 1 modulo
2^SP_WIDTH, and with SP_WIDTH = 8 it never raises. That the machine's own SP_WIDTH is 16 is log entry 1 (decision D3). -/
def Obligations.CallForBothStackWidths : Prop :=
  params.spWidth = .w16 ∧
  ∀ (n : NegBit) (target : Word) (s : State),
    (s.sp.toNat < 65535 → (callSubroutine ⟨.w16, n⟩ target s).sp.toNat = (s.sp.toNat + 1) % 65536) ∧
    (s.sp.toNat < 256 → (callSubroutine ⟨.w8, n⟩ target s).sp.toNat = (s.sp.toNat + 1) % 256 ∧
      (callSubroutine ⟨.w8, n⟩ target s).pc = target ∧
      (callSubroutine ⟨.w8, n⟩ target s).fault = s.fault)

/-- R55: a call whose target is the stack address: the bytes it pushed are what the next fetch decodes. -/
def Obligations.PushedBytesAreFetched : Prop :=
  ∀ s : State, s.sp ≠ 0xFFFF → ∃ t, exec (.jsr s.sp) s = .next t ∧
    fetchInstr t =
      decodeBytes (lowByte (s.pc + 2)) (highByte (s.pc + 2)) (s.mem.read ((s.sp.toNat + 2) % 65536))

/-! Unknown opcodes -/

/-- R90, R141: an unknown opcode answers the next state with PC + 1, 1 cycle and one record with code 1, the
byte and its address; nothing else changes. -/
def Obligations.UnknownOpcodeResult : Prop :=
  ∀ (op : Byte) (s : State), exec (.unknownOpcode op) s = .next { s with
    pc := s.pc + 1, budget := s.budget - 1, diagnostics := s.diagnostics ++ [⟨1, op, s.pc⟩] }

/-- R90 at the level of a step: any byte at PC other than the four, the record holding that byte. -/
def Obligations.StepUnknownOpcode : Prop :=
  ∀ s : State, s.executing = true → s.fault = none → 0 < s.budget → ∀ op : Byte,
    s.mem.read s.pc.toNat = op → op ≠ 0xA9 → op ≠ 0xA5 → op ≠ 0xB5 → op ≠ 0x20 →
    step s = .next { s with
      pc := s.pc + 1, budget := s.budget - 1, diagnostics := s.diagnostics ++ [⟨1, op, s.pc⟩] }

/-! Instructions as a whole -/

/-- A running command whose budget is above 0 and whose latch is empty runs, in one step, the instruction the
bytes at PC decode to (R87, R89). -/
def Obligations.StepRunsDecodedInstruction : Prop :=
  ∀ (s : State) (i : Instr) (rest : List Byte), s.executing = true → s.fault = none → 0 < s.budget →
    decode [s.byteAt s.pc, s.byteAt (s.pc + 1), s.byteAt (s.pc + 2)] = .instr i rest →
    step s = exec i s

/-- R22: PC after each instruction, from the opcode address `P = s.pc`; a JSR that faults is left out, R120 says
where it leaves PC. -/
def Obligations.PcAfterEachInstruction : Prop :=
  ∀ (i : Instr) (s : State), ((∃ a, i = .jsr a) → s.sp ≠ 0xFFFF) → ∃ t, exec i s = .next t ∧
    (∀ b, i = .ldaImm b ∨ i = .ldaZp b ∨ i = .ldaZpX b → t.pc.toNat = (s.pc.toNat + 2) % 65536) ∧
    (∀ a, i = .jsr a → t.pc = a) ∧
    (∀ op, i = .unknownOpcode op → t.pc.toNat = (s.pc.toNat + 1) % 65536)

/-- R71: the charges of a well-formed instruction add up to the cost the opcode map gives its opcode byte, and
are not charged a second time. -/
def Obligations.ChargesAddUpToTableCost : Prop :=
  ∀ (i : Instr) (s : State), wellFormed i = true → ((∃ a, i = .jsr a) → s.sp ≠ 0xFFFF) →
    ∃ t op operands, exec i s = .next t ∧ encode i = op :: operands ∧
      t.budget = s.budget - (opcodeCycles op : Int)

/-- R46: the only reachable OutOfRange is a JSR executed with SP = 0xFFFF. -/
def Obligations.OnlyJsrAtTopRaises : Prop :=
  ∀ (i : Instr) (s : State), s.fault = none → ∃ t, exec i s = .next t ∧
    (t.fault ≠ none ↔ (∃ a, i = .jsr a) ∧ s.sp = 0xFFFF) ∧
    (t.fault ≠ none → t.fault = some (.outOfRange 0x10000))

/-- R25 to R29: which instructions may change which register; X and Y are changed by none. -/
def Obligations.RegisterWriters : Prop :=
  ∀ (i : Instr) (s t : State), exec i s = .next t →
    t.x = s.x ∧ t.y = s.y ∧
    (t.a ≠ s.a → ∃ b, i = .ldaImm b ∨ i = .ldaZp b ∨ i = .ldaZpX b) ∧
    (t.sp ≠ s.sp → (∃ a, i = .jsr a) ∧ t.sp = s.sp + 1)

/-- R32: C, I, D, B and V are written by no instruction, and Z and N by the loads alone. -/
def Obligations.FlagWriters : Prop :=
  ∀ (i : Instr) (s t : State), exec i s = .next t →
    t.flags.c = s.flags.c ∧ t.flags.i = s.flags.i ∧ t.flags.d = s.flags.d ∧ t.flags.b = s.flags.b ∧
    t.flags.v = s.flags.v ∧
    (t.flags ≠ s.flags → ∃ b, i = .ldaImm b ∨ i = .ldaZp b ∨ i = .ldaZpX b)

/-- R32, R145, R28: no flag and no value of Y changes what any instruction does. -/
def Obligations.FlagsAndYSteerNothing : Prop :=
  ∀ (i : Instr) (s : State) (fl : Flags) (y : Byte), ∃ t t' : State, exec i s = .next t ∧
    exec i { s with flags := fl, y := y } = .next t' ∧
    { t' with flags := t.flags, y := t.y } = t

/-- R27: X is read by ZeroPageX alone: with any other instruction, a run that differs in X differs in X only. -/
def Obligations.OnlyZeroPageXReadsX : Prop :=
  ∀ (i : Instr) (s : State) (x : Byte), (∀ b, i ≠ .ldaZpX b) → ∃ t : State, exec i s = .next t ∧
    exec i { s with x := x } = .next { t with x := x }

/-- R36, R141: one step leaves the diagnostic stream alone, or appends the one record of the unknown opcode it
ran. -/
def Obligations.DiagnosticsGrowByUnknownOpcodes : Prop :=
  ∀ s t : State, step s = .next t →
    t.diagnostics = s.diagnostics ∨
    (s.executing = true ∧ s.fault = none ∧ 0 < s.budget ∧ lookupOpcode (s.mem.read s.pc.toNat) = none ∧
      t.diagnostics = s.diagnostics ++ [⟨1, s.mem.read s.pc.toNat, s.pc⟩])

/-! The Execute command and the host (40_fetch_dispatch.md, 10_state.md R39) -/

/-- R91: a running command whose budget is at most 0 ends with Done, and one whose latch is set ends with the
fault; either way it returns the budget, and nothing else changes. The list of responses and the step that ends
the command are the model's choice (log entries 3 and 6). -/
def Obligations.ExecuteEndsDoneOrFaulted : Prop :=
  ∀ s : State, s.executing = true →
    (s.fault = none → s.budget ≤ 0 → step s = .next { s with
      executing := false, responses := s.responses ++ [.executed s.budget .done] }) ∧
    (∀ f, s.fault = some f → step s = .next { s with
      executing := false, responses := s.responses ++ [.executed s.budget (.faulted f)] })

/-- R35, R87: while the latch is set, Execute(b) returns `(b, Faulted)` and changes no register, flag or byte.
The queue, the list of responses and the budget field's b are the model's choice (log entries 3 and 6). -/
def Obligations.LatchedExecuteDoesNothing : Prop :=
  ∀ (s : State) (f : Fault) (b : Int) (cs : List Command), s.executing = false → s.fault = some f →
    s.commands = .execute b :: cs → Sys2Proof.core.run 2 s = Host.Outcome.next { s with
      commands := cs, budget := b, responses := s.responses ++ [.executed b (.faulted f)] }

/-- R35: the latch is set by a JSR at the top of memory alone, and once set only the host's Reset clears it. -/
def Obligations.LatchSetByFaultClearedByReset : Prop :=
  ∀ s t : State, step s = .next t →
    (s.fault = none → t.fault ≠ none → s.executing = true ∧ s.sp = 0xFFFF ∧
      s.mem.read s.pc.toNat = 0x20 ∧ t.fault = some (.outOfRange 0x10000)) ∧
    (∀ f, s.fault = some f → t.fault = some f ∨
      (s.executing = false ∧ t.fault = none ∧ ∃ cs, s.commands = .reset :: cs))

/-- R160, R38: what the Reset command leaves, from every state; the budget and the diagnostic stream are not
affected. That the command waits in a queue is the model's choice (log entry 3). -/
def Obligations.ResetCommandRule : Prop :=
  ∀ (s : State) (cs : List Command), s.executing = false → s.commands = .reset :: cs →
    ∃ t, step s = .next t ∧ t.pc = 0xFFFC ∧ t.sp = 0x0100 ∧ t.a = 0 ∧ t.x = 0 ∧ t.y = 0 ∧
      t.flags = ⟨false, false, false, false, false, false, false⟩ ∧ (∀ a, t.mem.read a = 0) ∧
      t.fault = none ∧ t.budget = s.budget ∧ t.diagnostics = s.diagnostics ∧
      t.executing = false ∧ t.commands = cs ∧ t.responses = s.responses

/-- R38: the state after reset that the model starts from: the registers, the flags, the memory and the latch. -/
def Obligations.ResetStateValues : Prop :=
  State.reset.pc = 0xFFFC ∧ State.reset.sp = 0x0100 ∧ State.reset.a = 0 ∧ State.reset.x = 0 ∧
  State.reset.y = 0 ∧ State.reset.flags = ⟨false, false, false, false, false, false, false⟩ ∧
  (∀ a, State.reset.mem.read a = 0) ∧ State.reset.fault = none

/-- R39 (WriteMem, Execute, ReadState), R153: what an idle block does with the host's next command, and with
none. The queue and the list of answers are the model's choice (log entry 3); so is that Execute(b) on a latched
block loads b and marks the command running, for the next step to return the fault, where R35 and R87 test the
latch first (DESIGN CHOICE, log entry 6); that a step with no command changes nothing is log entry 11 (DEDUCED
from R153). -/
def Obligations.HostCommandEffects : Prop :=
  ∀ s : State, s.executing = false →
    (s.commands = [] → step s = .next s) ∧
    (∀ (a : Word) (v : Byte) cs, s.commands = .writeMem a v :: cs → ∃ t, step s = .next t ∧
      { t with mem := s.mem } = { s with commands := cs } ∧
      ∀ b, t.mem.read b = if b = a.toNat then v else s.mem.read b) ∧
    (∀ (b : Int) cs, s.commands = .execute b :: cs →
      step s = .next { s with commands := cs, budget := b, executing := true }) ∧
    (∀ cs, s.commands = .readState :: cs → step s = .next { s with
      commands := cs,
      responses := s.responses ++ [.stateRead ⟨s.pc, s.sp, s.a, s.x, s.y, s.flags, s.mem, s.fault⟩] })

/-- R39 (SetReg), R9, R31: a register takes the value modulo 2^N and nothing else changes; a flag written takes
bit 0 and every other flag stays. The queue is the model's choice (log entry 3), a flag's bit 0 its reading of R9
(DEDUCED, log entry 13). -/
def Obligations.SetRegWritesOneRegister : Prop :=
  ∀ (s : State) (r : RegName) (v : Nat) (cs : List Command), s.executing = false →
    s.commands = .setReg r v :: cs → ∃ t, step s = .next t ∧
    (r = .pc → t = { s with commands := cs, pc := t.pc } ∧ t.pc.toNat = v % 65536) ∧
    (r = .sp → t = { s with commands := cs, sp := t.sp } ∧ t.sp.toNat = v % 65536) ∧
    (r = .a → t = { s with commands := cs, a := t.a } ∧ t.a.toNat = v % 256) ∧
    (r = .x → t = { s with commands := cs, x := t.x } ∧ t.x.toNat = v % 256) ∧
    (r = .y → t = { s with commands := cs, y := t.y } ∧ t.y.toNat = v % 256) ∧
    (∀ f, r = .flag f → t = { s with commands := cs, flags := t.flags } ∧
      (getFlag f t.flags = true ↔ v % 2 = 1) ∧
      ∀ g, g ≠ f → getFlag g t.flags = getFlag g s.flags)

/-- R7, R39: while an Execute command runs the host can neither act nor be noticed: a step keeps the commands
that wait, and does the same whatever they are. The queue is the model's choice (log entry 3). -/
def Obligations.HostWaitsForRunningCommand : Prop :=
  ∀ (s : State) (cs : List Command), s.executing = true → ∃ t : State, step s = .next t ∧
    t.commands = s.commands ∧ step { s with commands := cs } = .next { t with commands := cs }

/-- R91, R143: no step of any state stops the model: nothing halts, traps or is refused. A raised OutOfRange is a
next state with the latch set (DEDUCED, log entry 7), and an idle block with no command stays as it is (DEDUCED, log entry 11). -/
def Obligations.EveryStepAnswersNext : Prop :=
  ∀ s : State, ∃ t, step s = .next t

/-- R92: an iteration lowers the budget by 1 to 6; a running command ends within `max(budget, 0)` instructions
and its own last step; and, started above 0 and ended with Done, its budget is in -5..0. That last step and the list of
responses are the model's choice (log entries 3 and 6). -/
def Obligations.ExecuteEndsWithinBudget : Prop :=
  (∀ s t : State, s.executing = true → s.fault = none → 0 < s.budget → step s = .next t →
    s.budget - 6 ≤ t.budget ∧ t.budget ≤ s.budget - 1) ∧
  ∀ s : State, s.executing = true → ∃ (k : Nat) (t : State) (st : Status),
    k ≤ s.budget.toNat + 1 ∧ Sys2Proof.core.run k s = Host.Outcome.next t ∧ t.executing = false ∧
    t.responses = s.responses ++ [.executed t.budget st] ∧
    (st = .done → t.fault = none ∧ (0 < s.budget → -5 ≤ t.budget ∧ t.budget ≤ 0)) ∧
    (∀ f, st = .faulted f → t.fault = some f)

/-! Headline statements -/

/-- From every state that meets the invariant, a step gives a state that meets it: memory canonical (R40), the
latch legal (R46), every record and response one the spec allows (R91, R140, R141). The memory form and the list
of responses are the model's choice (log entries 2 and 3). -/
def Obligations.StepKeepsInvariant : Prop :=
  ∀ s t : State, s.Inv → step s = .next t → t.Inv

/-- The state after reset meets the invariant; that its two streams are empty is the model's choice (log
entry 4). -/
def Obligations.ResetMeetsInvariant : Prop := State.reset.Inv

/-- R89: in a running command, one step of the machine, which decodes a whole instruction and then runs it, is
the spec's Step, which fetches byte by byte through the primitives. -/
def Obligations.StepRefinesSpecStep : Prop :=
  ∀ s : State, s.executing = true → s.fault = none → 0 < s.budget →
    step s = .next (Reference.step params s)

/-- R87: stepping the machine from an Execute command until it is idle again gives the state, the budget and the
status of the spec's Execute, within `max(b, 0) + 2` steps. The queue, the list of responses and the two extra
steps are the model's choice (log entries 3 and 6). -/
def Obligations.StepsRefineSpecExecute : Prop :=
  ∀ (s : State) (b : Int) (cs : List Command), s.executing = false → s.commands = .execute b :: cs →
    ∃ k : Nat, k ≤ b.toNat + 2 ∧ Sys2Proof.core.run k s = Host.Outcome.next { Reference.execute params b s with
      commands := cs, executing := false,
      responses := s.responses ++ [.executed (Reference.execute params b s).budget
        (exitStatus (Reference.execute params b s))] }

/-- R46, R122: with no host command waiting, a run of `k` steps is safe as long as SP has room for `k` calls. -/
def Obligations.RunIsSafeWithStackRoom : Prop :=
  ∀ (k : Nat) (s : State), s.fault = none → s.commands = [] → s.sp.toNat + k ≤ 65535 → SafeRun k s
end

