-- ==== Sys2Proof/Laws/Decode.lean ====
section
/-! SUPPORT. The opcode map's lookup by cases, and the byte-order helpers undone. -/

namespace Sys2Proof

/-- The lookup, one entry at a time, in the map's order. -/
theorem lookupOpcode_eq (op : Byte) : lookupOpcode op =
    if op = 0xA9 then some ⟨0xA9, .ldaImm, .immediate, .opImm8, 2⟩
    else if op = 0xA5 then some ⟨0xA5, .ldaZp, .zeroPage, .opZp8, 3⟩
    else if op = 0xB5 then some ⟨0xB5, .ldaZpX, .zeroPageX, .opZp8, 4⟩
    else if op = 0x20 then some ⟨0x20, .jsr, .absolute, .opAbs16, 6⟩
    else none := by
  simp only [lookupOpcode, opcodeMap, List.find?_cons, List.find?_nil, Opcode.ldaImm, Opcode.ldaZp,
    Opcode.ldaZpX, Opcode.jsr]
  split_ifs with h1 h2 h3 h4
  · subst h1; rfl
  · subst h2; rfl
  · subst h3; rfl
  · subst h4; rfl
  · have e (k : Byte) (h : ¬ op = k) : (op == k) = false := beq_eq_false_iff_ne.2 h
    rw [e _ h1, e _ h2, e _ h3, e _ h4]

theorem lookupOpcode_none_iff (op : Byte) :
    lookupOpcode op = none ↔ op ≠ 0xA9 ∧ op ≠ 0xA5 ∧ op ≠ 0xB5 ∧ op ≠ 0x20 := by
  rw [lookupOpcode_eq]
  split_ifs <;> simp_all

/-- The decoder on three bytes, by opcode byte. -/
theorem decodeBytes_eq (op b1 b2 : Byte) : decodeBytes op b1 b2 =
    if op = 0xA9 then .ldaImm b1
    else if op = 0xA5 then .ldaZp b1
    else if op = 0xB5 then .ldaZpX b1
    else if op = 0x20 then .jsr (joinBytes b2 b1)
    else .unknownOpcode op := by
  unfold decodeBytes
  rw [lookupOpcode_eq]
  split_ifs <;> rfl

theorem instrLength_eq (op : Byte) : instrLength op =
    if op = 0xA9 then 2 else if op = 0xA5 then 2 else if op = 0xB5 then 2 else if op = 0x20 then 3 else 1 := by
  unfold instrLength
  rw [lookupOpcode_eq]
  split_ifs <;> rfl

/-- `hi ++ lo = hi*256 + lo` (R8). -/
theorem joinBytes_toNat (hi lo : Byte) : (joinBytes hi lo).toNat = hi.toNat * 256 + lo.toNat := by
  have h : (joinBytes hi lo).toNat = hi.toNat <<< 8 ||| lo.toNat := BitVec.toNat_append hi lo
  rw [h, ← Nat.shiftLeft_add_eq_or_of_lt lo.isLt, Nat.shiftLeft_eq]

theorem lowByte_toNat (v : Word) : (lowByte v).toNat = v.toNat % 256 := by
  simp [lowByte, BitVec.extractLsb'_toNat]

theorem highByte_toNat (v : Word) : (highByte v).toNat = v.toNat / 256 := by
  have := v.isLt
  simp only [highByte, BitVec.extractLsb'_toNat, Nat.shiftRight_eq_div_pow]
  omega

@[simp] theorem joinBytes_high_low (v : Word) : joinBytes (highByte v) (lowByte v) = v :=
  BitVec.eq_of_toNat_eq (by rw [joinBytes_toNat, highByte_toNat, lowByte_toNat]; omega)

@[simp] theorem lowByte_joinBytes (hi lo : Byte) : lowByte (joinBytes hi lo) = lo :=
  BitVec.eq_of_toNat_eq (by rw [lowByte_toNat, joinBytes_toNat]; omega)

@[simp] theorem highByte_joinBytes (hi lo : Byte) : highByte (joinBytes hi lo) = hi :=
  BitVec.eq_of_toNat_eq (by rw [highByte_toNat, joinBytes_toNat]; omega)

end Sys2Proof
end

