-- ==== Sys2Proof/Laws/State.lean ====
section
/-! SUPPORT. One lemma per field per update of State, for each shared operation that updates it, all true by
unfolding the one record update. Later proofs use these and never unfold an update again. -/

namespace Sys2Proof.Machine

section ChargeCycles
variable (k : Nat) (s : State)
@[simp] theorem chargeCycles_pc : (chargeCycles k s).pc = s.pc := rfl
@[simp] theorem chargeCycles_sp : (chargeCycles k s).sp = s.sp := rfl
@[simp] theorem chargeCycles_a : (chargeCycles k s).a = s.a := rfl
@[simp] theorem chargeCycles_x : (chargeCycles k s).x = s.x := rfl
@[simp] theorem chargeCycles_y : (chargeCycles k s).y = s.y := rfl
@[simp] theorem chargeCycles_flags : (chargeCycles k s).flags = s.flags := rfl
@[simp] theorem chargeCycles_mem : (chargeCycles k s).mem = s.mem := rfl
@[simp] theorem chargeCycles_fault : (chargeCycles k s).fault = s.fault := rfl
@[simp] theorem chargeCycles_budget : (chargeCycles k s).budget = s.budget - k := rfl
@[simp] theorem chargeCycles_diagnostics : (chargeCycles k s).diagnostics = s.diagnostics := rfl
@[simp] theorem chargeCycles_executing : (chargeCycles k s).executing = s.executing := rfl
@[simp] theorem chargeCycles_commands : (chargeCycles k s).commands = s.commands := rfl
@[simp] theorem chargeCycles_responses : (chargeCycles k s).responses = s.responses := rfl
end ChargeCycles

section RaiseFault
variable (f : Fault) (s : State)
@[simp] theorem raiseFault_pc : (raiseFault f s).pc = s.pc := rfl
@[simp] theorem raiseFault_sp : (raiseFault f s).sp = s.sp := rfl
@[simp] theorem raiseFault_a : (raiseFault f s).a = s.a := rfl
@[simp] theorem raiseFault_x : (raiseFault f s).x = s.x := rfl
@[simp] theorem raiseFault_y : (raiseFault f s).y = s.y := rfl
@[simp] theorem raiseFault_flags : (raiseFault f s).flags = s.flags := rfl
@[simp] theorem raiseFault_mem : (raiseFault f s).mem = s.mem := rfl
@[simp] theorem raiseFault_fault : (raiseFault f s).fault = some f := rfl
@[simp] theorem raiseFault_budget : (raiseFault f s).budget = s.budget := rfl
@[simp] theorem raiseFault_diagnostics : (raiseFault f s).diagnostics = s.diagnostics := rfl
@[simp] theorem raiseFault_executing : (raiseFault f s).executing = s.executing := rfl
@[simp] theorem raiseFault_commands : (raiseFault f s).commands = s.commands := rfl
@[simp] theorem raiseFault_responses : (raiseFault f s).responses = s.responses := rfl
end RaiseFault

section EmitUnknownOpcode
variable (op : Byte) (p : Word) (s : State)
@[simp] theorem emitUnknownOpcode_pc : (emitUnknownOpcode op p s).pc = s.pc := rfl
@[simp] theorem emitUnknownOpcode_sp : (emitUnknownOpcode op p s).sp = s.sp := rfl
@[simp] theorem emitUnknownOpcode_a : (emitUnknownOpcode op p s).a = s.a := rfl
@[simp] theorem emitUnknownOpcode_x : (emitUnknownOpcode op p s).x = s.x := rfl
@[simp] theorem emitUnknownOpcode_y : (emitUnknownOpcode op p s).y = s.y := rfl
@[simp] theorem emitUnknownOpcode_flags : (emitUnknownOpcode op p s).flags = s.flags := rfl
@[simp] theorem emitUnknownOpcode_mem : (emitUnknownOpcode op p s).mem = s.mem := rfl
@[simp] theorem emitUnknownOpcode_fault : (emitUnknownOpcode op p s).fault = s.fault := rfl
@[simp] theorem emitUnknownOpcode_budget : (emitUnknownOpcode op p s).budget = s.budget := rfl
@[simp] theorem emitUnknownOpcode_diagnostics :
    (emitUnknownOpcode op p s).diagnostics = s.diagnostics ++ [⟨codeUnknownOpcode, op, p⟩] := rfl
@[simp] theorem emitUnknownOpcode_executing : (emitUnknownOpcode op p s).executing = s.executing := rfl
@[simp] theorem emitUnknownOpcode_commands : (emitUnknownOpcode op p s).commands = s.commands := rfl
@[simp] theorem emitUnknownOpcode_responses : (emitUnknownOpcode op p s).responses = s.responses := rfl
end EmitUnknownOpcode

section ConsumeByte
variable (s : State)
@[simp] theorem consumeByte_pc : (consumeByte s).pc = s.pc + 1 := rfl
@[simp] theorem consumeByte_sp : (consumeByte s).sp = s.sp := rfl
@[simp] theorem consumeByte_a : (consumeByte s).a = s.a := rfl
@[simp] theorem consumeByte_x : (consumeByte s).x = s.x := rfl
@[simp] theorem consumeByte_y : (consumeByte s).y = s.y := rfl
@[simp] theorem consumeByte_flags : (consumeByte s).flags = s.flags := rfl
@[simp] theorem consumeByte_mem : (consumeByte s).mem = s.mem := rfl
@[simp] theorem consumeByte_fault : (consumeByte s).fault = s.fault := rfl
@[simp] theorem consumeByte_budget : (consumeByte s).budget = s.budget - 1 := rfl
@[simp] theorem consumeByte_diagnostics : (consumeByte s).diagnostics = s.diagnostics := rfl
@[simp] theorem consumeByte_executing : (consumeByte s).executing = s.executing := rfl
@[simp] theorem consumeByte_commands : (consumeByte s).commands = s.commands := rfl
@[simp] theorem consumeByte_responses : (consumeByte s).responses = s.responses := rfl
@[simp] theorem consumeByte_byteAt (a : Word) : (consumeByte s).byteAt a = s.byteAt a := rfl
end ConsumeByte

section ConsumeWord
variable (s : State)
@[simp] theorem consumeWord_pc : (consumeWord s).pc = s.pc + 2 := rfl
@[simp] theorem consumeWord_sp : (consumeWord s).sp = s.sp := rfl
@[simp] theorem consumeWord_a : (consumeWord s).a = s.a := rfl
@[simp] theorem consumeWord_x : (consumeWord s).x = s.x := rfl
@[simp] theorem consumeWord_y : (consumeWord s).y = s.y := rfl
@[simp] theorem consumeWord_flags : (consumeWord s).flags = s.flags := rfl
@[simp] theorem consumeWord_mem : (consumeWord s).mem = s.mem := rfl
@[simp] theorem consumeWord_fault : (consumeWord s).fault = s.fault := rfl
@[simp] theorem consumeWord_budget : (consumeWord s).budget = s.budget - 2 := rfl
@[simp] theorem consumeWord_diagnostics : (consumeWord s).diagnostics = s.diagnostics := rfl
@[simp] theorem consumeWord_executing : (consumeWord s).executing = s.executing := rfl
@[simp] theorem consumeWord_commands : (consumeWord s).commands = s.commands := rfl
@[simp] theorem consumeWord_responses : (consumeWord s).responses = s.responses := rfl
@[simp] theorem consumeWord_byteAt (a : Word) : (consumeWord s).byteAt a = s.byteAt a := rfl
end ConsumeWord

section LoadA
variable (p : Params) (v : Byte) (s : State)
@[simp] theorem loadA_pc : (loadA p v s).pc = s.pc := rfl
@[simp] theorem loadA_sp : (loadA p v s).sp = s.sp := rfl
@[simp] theorem loadA_a : (loadA p v s).a = v := rfl
@[simp] theorem loadA_x : (loadA p v s).x = s.x := rfl
@[simp] theorem loadA_y : (loadA p v s).y = s.y := rfl
@[simp] theorem loadA_flags : (loadA p v s).flags =
    { s.flags with z := v == 0, n := v.getLsbD (negIndex p.negBit) } := rfl
@[simp] theorem loadA_mem : (loadA p v s).mem = s.mem := rfl
@[simp] theorem loadA_fault : (loadA p v s).fault = s.fault := rfl
@[simp] theorem loadA_budget : (loadA p v s).budget = s.budget := rfl
@[simp] theorem loadA_diagnostics : (loadA p v s).diagnostics = s.diagnostics := rfl
@[simp] theorem loadA_executing : (loadA p v s).executing = s.executing := rfl
@[simp] theorem loadA_commands : (loadA p v s).commands = s.commands := rfl
@[simp] theorem loadA_responses : (loadA p v s).responses = s.responses := rfl
end LoadA

section FinishExecute
variable (s : State)
@[simp] theorem finishExecute_mem : (finishExecute s).mem = s.mem := rfl
@[simp] theorem finishExecute_fault : (finishExecute s).fault = s.fault := rfl
@[simp] theorem finishExecute_budget : (finishExecute s).budget = s.budget := rfl
@[simp] theorem finishExecute_diagnostics : (finishExecute s).diagnostics = s.diagnostics := rfl
@[simp] theorem finishExecute_executing : (finishExecute s).executing = false := rfl
@[simp] theorem finishExecute_commands : (finishExecute s).commands = s.commands := rfl
@[simp] theorem finishExecute_responses :
    (finishExecute s).responses = s.responses ++ [.executed s.budget (exitStatus s)] := rfl
end FinishExecute

end Sys2Proof.Machine
end

