-- ==== Sys2Proof/Laws/Memory.lean ====
section
/-! SUPPORT. The laws of the memory image: what a read sees after a write, and that every memory operation keeps
the canonical form. -/

namespace Sys2Proof.Machine

@[simp] theorem Memory.read_nil (a : Nat) : Memory.read [] a = 0 := rfl

theorem Memory.read_insert_same (m : Memory) (a : Nat) (v : Byte) : (m.insert a v).read a = v := by
  induction m with
  | nil => simp [Memory.insert, Memory.read]
  | cons c t ih =>
    obtain ⟨k, w⟩ := c
    unfold Memory.insert
    split
    · simp [Memory.read]
    · split
      · simp [Memory.read]
      · next hlt hne => simp [Memory.read, Ne.symm hne, ih]

theorem Memory.read_insert_other (m : Memory) {a b : Nat} (v : Byte) (h : b ≠ a) :
    (m.insert a v).read b = m.read b := by
  induction m with
  | nil => simp [Memory.insert, Memory.read, Ne.symm h]
  | cons c t ih =>
    obtain ⟨k, w⟩ := c
    unfold Memory.insert
    split
    · simp [Memory.read, Ne.symm h]
    · split
      · next heq => subst heq; simp [Memory.read, Ne.symm h]
      · simp [Memory.read, ih]

theorem Memory.read_erase_same (m : Memory) (a : Nat) : (m.erase a).read a = 0 := by
  induction m with
  | nil => rfl
  | cons c t ih =>
    obtain ⟨k, w⟩ := c
    by_cases hk : k = a
    · simpa [Memory.erase, hk] using ih
    · simpa [Memory.erase, Memory.read, hk] using ih

theorem Memory.read_erase_other (m : Memory) {a b : Nat} (h : b ≠ a) : (m.erase a).read b = m.read b := by
  induction m with
  | nil => rfl
  | cons c t ih =>
    obtain ⟨k, w⟩ := c
    by_cases hk : k = a
    · simpa [Memory.erase, Memory.read, hk, Ne.symm h] using ih
    · simp only [Memory.erase, ne_eq, decide_not] at ih
      simp [Memory.erase, Memory.read, hk, ih]

/-- A read of the address written gives the value written. -/
theorem Memory.read_write_same (m : Memory) (a : Nat) (v : Byte) : (m.write a v).read a = v := by
  unfold Memory.write
  split
  · next h => rw [h, Memory.read_erase_same]; rfl
  · exact Memory.read_insert_same m a v

/-- A write leaves every other address alone. -/
theorem Memory.read_write_other (m : Memory) {a b : Nat} (v : Byte) (h : b ≠ a) :
    (m.write a v).read b = m.read b := by
  unfold Memory.write
  split
  · exact Memory.read_erase_other m h
  · exact Memory.read_insert_other m v h

/-- A read after the two writes of a word. -/
theorem Memory.read_write_two (m : Memory) (a b : Nat) (lo hi : Byte) :
    ((m.write a lo).write (a + 1) hi).read b =
      if b = a then lo else if b = a + 1 then hi else m.read b := by
  by_cases h : b = a
  · subst h
    rw [if_pos rfl, Memory.read_write_other _ _ (Nat.ne_of_lt (Nat.lt_succ_self _)), Memory.read_write_same]
  · rw [if_neg h]
    by_cases h2 : b = a + 1
    · rw [h2, if_pos rfl, Memory.read_write_same]
    · rw [if_neg h2, Memory.read_write_other _ _ h2, Memory.read_write_other _ _ h]

/-- In a rising list, an address below every entry reads as an unlisted one. -/
theorem Memory.read_below {m : Memory} {k : Nat} (h : ∀ c ∈ m, k < c.1) : m.read k = 0 := by
  induction m with
  | nil => rfl
  | cons c t ih =>
    obtain ⟨j, w⟩ := c
    have hj : k < j := h (j, w) List.mem_cons_self
    simp only [Memory.read]
    rw [if_neg (Nat.ne_of_gt hj), ih fun c hc => h c (List.mem_cons_of_mem _ hc)]

theorem Memory.mem_insert {m : Memory} {a : Nat} {v : Byte} {c : Host.Cell} (h : c ∈ m.insert a v) :
    c = (a, v) ∨ c ∈ m := by
  induction m with
  | nil => simpa [Memory.insert] using h
  | cons d t ih =>
    unfold Memory.insert at h
    split at h
    · simpa using h
    · split at h
      · rcases List.mem_cons.1 h with h | h
        · exact .inl h
        · exact .inr (List.mem_cons_of_mem _ h)
      · rcases List.mem_cons.1 h with h | h
        · exact .inr (h ▸ List.mem_cons_self)
        · exact (ih h).imp_right (List.mem_cons_of_mem _)

theorem Memory.insert_rising {m : Memory} (a : Nat) (v : Byte)
    (h : m.Pairwise fun c d => c.1 < d.1) : (m.insert a v).Pairwise fun c d => c.1 < d.1 := by
  induction m with
  | nil => simp [Memory.insert]
  | cons d t ih =>
    obtain ⟨k, w⟩ := d
    obtain ⟨hk, ht⟩ := List.pairwise_cons.1 h
    unfold Memory.insert
    split
    · next hlt =>
      refine List.pairwise_cons.2 ⟨fun c hc => ?_, h⟩
      rcases List.mem_cons.1 hc with rfl | hc
      · exact hlt
      · exact Nat.lt_trans hlt (hk c hc)
    · split
      · next heq => subst heq; exact List.pairwise_cons.2 ⟨hk, ht⟩
      · next hlt hne =>
        refine List.pairwise_cons.2 ⟨fun c hc => ?_, ih ht⟩
        rcases Memory.mem_insert hc with rfl | hc
        · change k < a
          omega
        · exact hk c hc

/-- Every memory operation keeps the canonical form: the one operation that changes memory is the write of
one byte in range. -/
theorem Memory.write_wf {m : Memory} {a : Nat} (v : Byte) (h : m.wf) (ha : a < Config.memSize) :
    (m.write a v).wf := by
  unfold Memory.write
  split
  · exact ⟨h.1.filter _, fun c hc => h.2 c (List.mem_filter.1 hc).1⟩
  · next hv =>
    refine ⟨Memory.insert_rising a v h.1, fun c hc => ?_⟩
    rcases Memory.mem_insert hc with rfl | hc
    · exact ⟨ha, hv⟩
    · exact h.2 c hc

theorem Memory.write_wf_word {m : Memory} (a : Word) (v : Byte) (h : m.wf) : (m.write a.toNat v).wf :=
  Memory.write_wf v h a.isLt

theorem Memory.wf_nil : Memory.wf [] := ⟨List.Pairwise.nil, by simp⟩

end Sys2Proof.Machine
end

