-- ==== Sys2Proof/Laws/Ops.lean ====
section
/-! SUPPORT. What the bounded memory accesses and the call can do, said once. -/

namespace Sys2Proof.Machine

/-- A 16-bit address is always in range (R46). -/
theorem memRead_word (a : Word) (s : State) : memRead a.toNat s = .ok (s.byteAt a) := if_pos a.isLt

theorem memWrite_inRange {a : Nat} (v : Byte) (s : State) (h : a < Config.memSize) :
    memWrite a v s = .ok { s with mem := s.mem.write a v } := if_pos h

/-- WriteWord at an address whose second byte does not exist raises and changes nothing. -/
theorem writeWord_outOfRange (v : Word) {a : Nat} (s : State) (h : Config.memSize ≤ a + 1) :
    writeWord v a s = .error (.outOfRange (a + 1)) := if_pos h

/-- WriteWord in range: both bytes, low first, and 2 cycles. -/
theorem writeWord_inRange (v : Word) {a : Nat} (s : State) (h : a + 1 < Config.memSize) :
    writeWord v a s = .ok { s with
      mem := (s.mem.write a (lowByte v)).write (a + 1) (highByte v), budget := s.budget - 2 } := by
  unfold writeWord
  rw [if_neg (Nat.not_le.2 h), memWrite_inRange _ _ (Nat.lt_of_succ_lt h)]
  simp only [memWrite_inRange _ _ h]
  rfl

theorem sp_inRange {sp : Word} (h : sp ≠ 0xFFFF) : sp.toNat + 1 < Config.memSize := by
  have h1 := sp.isLt
  have h2 : sp.toNat ≠ 65535 := fun h3 => h (BitVec.eq_of_toNat_eq h3)
  unfold Config.memSize
  omega

/-- The call with SP below the top: both return bytes stored at SP and SP + 1, SP up by 1, PC at the
target, 3 cycles. -/
theorem callSubroutine_inRange (p : Params) (target : Word) (s : State) (h : s.sp ≠ 0xFFFF) :
    callSubroutine p target s = { s with
      mem := (s.mem.write s.sp.toNat (lowByte (s.pc - 1))).write (s.sp.toNat + 1) (highByte (s.pc - 1)),
      sp := truncSp p.spWidth (s.sp + 1), pc := target, budget := s.budget - 3 } := by
  unfold callSubroutine
  rw [writeWord_inRange _ _ (sp_inRange h)]
  simp only [chargeCycles, State.mk.injEq, true_and, and_true]
  omega

/-- The call with SP at the top of memory raises the one reachable fault and does nothing else. -/
theorem callSubroutine_outOfRange (p : Params) (target : Word) (s : State) (h : s.sp = 0xFFFF) :
    callSubroutine p target s = raiseFault stackTopFault s := by
  unfold callSubroutine
  rw [h, writeWord_outOfRange _ _ (by decide)]
  rfl

/-- Everything the call can do. -/
theorem callSubroutine_cases (p : Params) (target : Word) (s : State) :
    (s.sp ≠ 0xFFFF ∧ callSubroutine p target s = { s with
      mem := (s.mem.write s.sp.toNat (lowByte (s.pc - 1))).write (s.sp.toNat + 1) (highByte (s.pc - 1)),
      sp := truncSp p.spWidth (s.sp + 1), pc := target, budget := s.budget - 3 }) ∨
    (s.sp = 0xFFFF ∧ callSubroutine p target s = raiseFault stackTopFault s) := by
  by_cases h : s.sp = 0xFFFF
  · exact .inr ⟨h, callSubroutine_outOfRange p target s h⟩
  · exact .inl ⟨h, callSubroutine_inRange p target s h⟩

end Sys2Proof.Machine
end

