-- ==== Sys2Proof/Laws/Exec.lean ====
section
/-! SUPPORT. What the dispatch can do, said once: every instruction answers a next state, and the cases of that
state; and what one step of the block can do. -/

namespace Sys2Proof.Machine

/-- Everything `exec` can do: a load of some byte, a call, or a record. -/
theorem exec_cases (i : Instr) (s : State) :
    (∃ n v, 2 ≤ n ∧ n ≤ 4 ∧ exec i s = .next (loadA params v (chargeCycles n { s with pc := s.pc + 2 }))) ∨
    (∃ target, i = .jsr target ∧
      exec i s = .next (callSubroutine params target (consumeWord (consumeByte s)))) ∨
    (∃ op, i = .unknownOpcode op ∧ exec i s = .next (emitUnknownOpcode op s.pc (consumeByte s))) := by
  have hpc : s.pc + 1 + 1 = s.pc + 2 := by rw [BitVec.add_assoc]; rfl
  cases i with
  | ldaImm v =>
    refine .inl ⟨2, v, by omega, by omega, ?_⟩
    simp only [exec, execLdaImm, loadA, updateZN, consumeByte, chargeCycles, hpc]
    congr 2
    omega
  | ldaZp zp =>
    refine .inl ⟨3, s.byteAt (zeroPageAddr zp), by omega, by omega, ?_⟩
    simp only [exec, execLdaZp, zeroPageOperand, readByte, loadA, updateZN, consumeByte, chargeCycles, hpc,
      State.byteAt]
    congr 2
    omega
  | ldaZpX zp =>
    refine .inl ⟨4, s.byteAt (zeroPageXAddr zp s.x), by omega, by omega, ?_⟩
    simp only [exec, execLdaZpX, zeroPageXOperand, readByte, loadA, updateZN, consumeByte, chargeCycles, hpc,
      State.byteAt]
    congr 2
    omega
  | jsr a => exact .inr (.inl ⟨a, rfl, rfl⟩)
  | unknownOpcode op => exact .inr (.inr ⟨op, rfl, rfl⟩)

/-- No instruction stops the model. -/
theorem exec_total (i : Instr) (s : State) : ∃ t, exec i s = .next t := by
  rcases exec_cases i s with ⟨_, _, -, -, h⟩ | ⟨_, -, h⟩ | ⟨_, -, h⟩ <;> exact ⟨_, h⟩

/-- An instruction leaves the host's side alone: it neither ends the command nor touches the two streams. -/
theorem exec_keeps_host {i : Instr} {s t : State} (h : exec i s = .next t) :
    t.executing = s.executing ∧ t.commands = s.commands ∧ t.responses = s.responses := by
  rcases exec_cases i s with ⟨n, v, -, -, he⟩ | ⟨target, -, he⟩ | ⟨op, -, he⟩ <;>
    (rw [he] at h; cases h)
  · exact ⟨rfl, rfl, rfl⟩
  · rcases callSubroutine_cases params target (consumeWord (consumeByte s)) with ⟨-, hc⟩ | ⟨-, hc⟩ <;>
      rw [hc] <;> exact ⟨rfl, rfl, rfl⟩
  · exact ⟨rfl, rfl, rfl⟩

/-- Everything one step can do: an instruction of a running command, the command's end, a host command, or
nothing. -/
theorem step_cases {s t : State} (h : step s = .next t) :
    (s.executing = true ∧ s.loopContinues ∧ exec (fetchInstr s) s = .next t) ∨
    (s.executing = true ∧ ¬ s.loopContinues ∧ t = finishExecute s) ∨
    (∃ c cs, s.executing = false ∧ s.commands = c :: cs ∧ t = runCommand c { s with commands := cs }) ∨
    (s.executing = false ∧ s.commands = [] ∧ t = s) := by
  unfold step at h
  split at h
  · next hx =>
    unfold executeTurn at h
    split at h
    · next hl => exact .inl ⟨hx, hl, h⟩
    · next hl => cases h; exact .inr (.inl ⟨hx, hl, rfl⟩)
  · next hx =>
    have hx : s.executing = false := by simpa using hx
    unfold hostTurn at h
    split at h
    · next hc => cases h; exact .inr (.inr (.inr ⟨hx, hc, rfl⟩))
    · next c cs hc => cases h; exact .inr (.inr (.inl ⟨c, cs, hx, hc, rfl⟩))

/-- A running command with budget left and no fault latched runs the instruction at PC. -/
theorem step_of_running {s : State} (hx : s.executing = true) (hl : s.loopContinues) :
    step s = exec (fetchInstr s) s := by
  unfold step executeTurn
  rw [if_pos hx, if_pos hl]

/-- A running command that may not go on returns. -/
theorem step_of_ending {s : State} (hx : s.executing = true) (hl : ¬ s.loopContinues) :
    step s = .next (finishExecute s) := by
  unfold step executeTurn
  rw [if_pos hx, if_neg hl]

/-- An idle block takes the host's next command. -/
theorem step_of_command {s : State} {c : Command} {cs : List Command} (hx : s.executing = false)
    (hc : s.commands = c :: cs) : step s = .next (runCommand c { s with commands := cs }) := by
  simp [step, hx, hostTurn, hc]

/-- The instruction at PC is an unknown opcode only when its byte has no entry. -/
theorem fetchInstr_unknown {s : State} {op : Byte} (h : fetchInstr s = .unknownOpcode op) :
    s.byteAt s.pc = op ∧ lookupOpcode op = none := by
  rw [fetchInstr, decodeBytes_eq] at h
  split_ifs at h with g1 g2 g3 g4
  injection h with h
  exact ⟨h, (lookupOpcode_none_iff _).2 (h ▸ ⟨g1, g2, g3, g4⟩)⟩

/-- SetReg touches one register or the flags, and nothing else. -/
theorem writeReg_keeps (p : Params) (r : RegName) (v : Nat) (s : State) :
    (writeReg p r v s).mem = s.mem ∧ (writeReg p r v s).fault = s.fault ∧
    (writeReg p r v s).budget = s.budget ∧ (writeReg p r v s).diagnostics = s.diagnostics ∧
    (writeReg p r v s).executing = s.executing ∧ (writeReg p r v s).commands = s.commands ∧
    (writeReg p r v s).responses = s.responses := by
  cases r <;> exact ⟨rfl, rfl, rfl, rfl, rfl, rfl, rfl⟩

/-! Runs of the machine behind the host's interface -/

theorem core_run_zero (s : State) : Host.Core.run Sys2Proof.core 0 s = Host.Outcome.next s := rfl

/-- A run that begins with a step to `t` goes on from `t`. -/
theorem core_run_succ (k : Nat) {s t : State} (h : step s = .next t) :
    Host.Core.run Sys2Proof.core (k + 1) s = Host.Core.run Sys2Proof.core k t := by
  have h' : Sys2Proof.core.step s = Host.Outcome.next t := h
  simp only [Host.Core.run, h']

end Sys2Proof.Machine
end

