-- ==== Sys2Proof/Laws/PerInstr.lean ====
section
/-! SUPPORT. Per-instruction families: a statement about the instruction as syntax, and one lemma per
constructor. -/

namespace Sys2Proof.Laws

/-- The encoded length of a well-formed instruction is the length its opcode byte decides
(30_encoding.md R61, R67). -/
def EncodedLength.Statement (i : Instr) : Prop :=
  wellFormed i = true → (encode i).length = instrLength ((encode i).headD 0)

theorem EncodedLength.ldaImm (imm8 : Byte) : EncodedLength.Statement (.ldaImm imm8) := fun _ => rfl
theorem EncodedLength.ldaZp (zp8 : Byte) : EncodedLength.Statement (.ldaZp zp8) := fun _ => rfl
theorem EncodedLength.ldaZpX (zp8 : Byte) : EncodedLength.Statement (.ldaZpX zp8) := fun _ => rfl
theorem EncodedLength.jsr (addr16 : Word) : EncodedLength.Statement (.jsr addr16) := fun _ => rfl
theorem EncodedLength.unknownOpcode (opcode : Byte) : EncodedLength.Statement (.unknownOpcode opcode) := by
  intro h
  have hn : lookupOpcode opcode = none := by simpa [wellFormed] using h
  simp [encode, instrLength, hn, Format.length]

end Sys2Proof.Laws
end

