-- ==== Sys2Proof/Tests/Slice0.lean ====
section
/-! SUPPORT. The model's own tests: the well-formedness smoke, decoding from words written out, single steps from
95_test_vectors.md, and for every statement with hypotheses a concrete state that meets them. -/

namespace Sys2Proof.Tests

open Sys2Proof Sys2Proof.Machine

/-! Helpers -/

/-- Bytes stored from an address on, modulo 2^16. -/
def store (m : Memory) : Word → List Byte → Memory
  | _, [] => m
  | a, b :: bs => store (m.write a.toNat b) (a + 1) bs

/-- A running command with budget 9 and these bytes at PC, everything else as after reset. -/
def running (pc : Word) (bs : List Byte) : State :=
  { State.reset with pc := pc, mem := store [] pc bs, executing := true, budget := 9 }

/-- An idle block with one host command waiting. -/
def waiting (c : Command) : State := { State.reset with commands := [c] }

/-- The next state of an outcome, where it has one. -/
def after : Host.Outcome State Fault Refusal → Option State
  | .next t => some t
  | .fault _ => none
  | .refused _ => none

/-! Well-formedness: the one check, and an ill-formed term it refuses for each byte of the map -/

theorem test_wf_refuses_A9 : wellFormed (.unknownOpcode 0xA9) = false := by decide
theorem test_wf_refuses_A5 : wellFormed (.unknownOpcode 0xA5) = false := by decide
theorem test_wf_refuses_B5 : wellFormed (.unknownOpcode 0xB5) = false := by decide
theorem test_wf_refuses_20 : wellFormed (.unknownOpcode 0x20) = false := by decide
theorem test_wf_accepts_FF : wellFormed (.unknownOpcode 0xFF) = true := by decide
theorem test_wf_accepts_operands :
    wellFormed (.ldaImm 0xFF) = true ∧ wellFormed (.ldaZp 0x00) = true ∧ wellFormed (.ldaZpX 0xFF) = true ∧
    wellFormed (.jsr 0xFFFF) = true := by decide

/-! Decoding, bit by bit from R61 and R65 -/

theorem test_decode_ldaImm : decodeTableWord 16 0b1000010010101001 = some (.ldaImm 0x84) := by decide
theorem test_decode_ldaZp : decodeTableWord 16 0b0001000010100101 = some (.ldaZp 0x10) := by decide
theorem test_decode_ldaZpX : decodeTableWord 16 0b1111111010110101 = some (.ldaZpX 0xFE) := by decide
theorem test_decode_jsr : decodeTableWord 24 0b000100100011010000100000 = some (.jsr 0x1234) := by decide
theorem test_decode_unknown_FF : decodeTableWord 8 0b11111111 = some (.unknownOpcode 0xFF) := by decide
theorem test_decode_unknown_EA : decodeTableWord 8 0b11101010 = some (.unknownOpcode 0xEA) := by decide
/-- Bits above `nbits` are 0, so an 8-bit JSR word has the target 0x0000. -/
theorem test_decode_short_jsr : decodeTableWord 8 0xFFFF20 = some (.jsr 0x0000) := by decide
theorem test_decode_no_bytes : decode [] = .refused .noOpcode := by decide
theorem test_decode_truncated : decode [0x20, 0x42] = .refused (.missingOperand 0x20) := by decide
theorem test_decode_rest : decode [0xA9, 0x84, 0x77] = .instr (.ldaImm 0x84) [0x77] := by decide
theorem test_encode_jsr : encode (.jsr 0x1234) = [0x20, 0x34, 0x12] := by decide

/-! Primitives (95_test_vectors.md Part 2) -/

/-- D-F5. -/
theorem test_fetchWord_wraps :
    (fetchWord (running 0xFFFF [0x34, 0x12])).1 = 0x1234 ∧
    (fetchWord (running 0xFFFF [0x34, 0x12])).2.pc = 0x0001 := by decide
/-- D-ZPX2, D-ZPX3. -/
theorem test_zeroPageX_wraps : zeroPageXAddr 0xFF 0x01 = 0x0000 ∧ zeroPageXAddr 0x80 0xFF = 0x007F := by decide
/-- D-L2 and D-L3 with NEG_BIT = 6. -/
theorem test_negBit6 :
    (loadA ⟨.w16, .bit6⟩ 0x80 State.reset).flags.n = false ∧
    (loadA ⟨.w16, .bit6⟩ 0x40 State.reset).flags.n = true := by decide
/-- D-J9: SP_WIDTH = 8 and SP = 0xFF. -/
theorem test_spWidth8_wraps :
    (callSubroutine ⟨.w8, .bit7⟩ 0x1234 { State.reset with pc := 0xFFFF, sp := 0x00FF }).sp = 0x0000 ∧
    (callSubroutine ⟨.w8, .bit7⟩ 0x1234 { State.reset with pc := 0xFFFF, sp := 0x00FF }).mem =
      [(0x00FF, 0xFE), (0x0100, 0xFF)] := by decide
/-- R38 with SP_WIDTH = 8. -/
theorem test_resetSp8 : resetSp ⟨.w8, .bit7⟩ = 0x0000 := by decide
/-- R140. -/
theorem test_codes : faultCode stackTopFault = 2 ∧ codeUnknownOpcode = 1 := by decide

/-! One step per test (95_test_vectors.md Part 2) -/

/-- D-L8: the five other flags stay set. -/
theorem test_ldaImm_flags :
    (after (step { running 0xFFFC [0xA9, 0x00] with
      flags := ⟨true, false, true, true, true, true, true⟩ })).map (·.flags) =
      some ⟨true, true, true, true, true, true, false⟩ := by decide
/-- D-L9: the operand at 0x0000. -/
theorem test_ldaImm_wrap :
    (after (step (running 0xFFFF [0xA9, 0x55]))).map (fun t => (t.a, t.pc, t.budget)) =
      some (0x55, 0x0001, 7) := by decide
/-- D-Z3: it loads its own operand byte. -/
theorem test_ldaZp_self :
    (after (step (running 0x0000 [0xA5, 0x01]))).map (fun t => (t.a, t.pc, t.budget)) =
      some (0x01, 0x0002, 6) := by decide
/-- D-Z2: an empty byte sets Z. -/
theorem test_ldaZp_zero :
    (after (step (running 0xFFFC [0xA5, 0xFF]))).map (fun t => (t.a, t.flags.z)) = some (0x00, true) := by decide
/-- D-X2: the index wraps to 0x0000, not 0x0100. -/
theorem test_ldaZpX_wrap :
    (after (step { running 0xFFFC [0xB5, 0xFF] with
      x := 0x01, mem := store (store (store [] 0x0000 [0xFF]) 0x0100 [0x11]) 0xFFFC [0xB5, 0xFF] })).map
      (fun t => (t.a, t.flags.n, t.flags.c, t.budget)) = some (0xFF, true, false, 5) := by decide
/-- D-X1. -/
theorem test_ldaZpX_index :
    (after (step { running 0xFFFC [0xB5, 0x10] with
      x := 0x04, mem := store (store [] 0x0014 [0x99]) 0xFFFC [0xB5, 0x10] })).map (fun t => (t.a, t.x, t.pc)) =
      some (0x99, 0x04, 0xFFFE) := by decide
/-- D-J6: the push replaces the JSR's own operand bytes after they were fetched. -/
theorem test_jsr_self :
    (after (step { running 0xFFFC [0x20, 0x34, 0x12] with sp := 0xFFFE })).map
      (fun t => (t.pc, t.sp, t.mem)) =
      some (0x1234, 0xFFFF, [(0xFFFC, 0x20), (0xFFFD, 0x34), (0xFFFE, 0xFE), (0xFFFF, 0xFF)]) := by decide
/-- D-J7: the fault at the top of memory. -/
theorem test_jsr_fault :
    (after (step { running 0xFFFC [0x20, 0x34, 0x12] with sp := 0xFFFF })).map
      (fun t => (t.fault, t.pc, t.budget)) = some (some (.outOfRange 0x10000), 0xFFFF, 6) ∧
    (after (step { running 0xFFFC [0x20, 0x34, 0x12] with sp := 0xFFFF })).map (fun t => (t.sp, t.mem)) =
      some (0xFFFF, [(0xFFFC, 0x20), (0xFFFD, 0x34), (0xFFFE, 0x12)]) := by decide
/-- D-U1. -/
theorem test_unknown_FF :
    (after (step (running 0xFFFC [0xFF]))).map (fun t => (t.pc, t.budget, t.diagnostics)) =
      some (0xFFFD, 8, [⟨1, 0xFF, 0xFFFC⟩]) := by decide
/-- D-U3. -/
theorem test_unknown_EA :
    (after (step (running 0xFFFC [0xEA]))).map (fun t => (t.a, t.diagnostics)) =
      some (0x00, [⟨1, 0xEA, 0xFFFC⟩]) := by decide
/-- D-E2: a budget of -3 runs nothing. -/
theorem test_execute_negative :
    (after (step { running 0xFFFC [0xA9, 0x84] with budget := -3 })).map (fun t => (t.pc, t.responses)) =
      some (0xFFFC, [.executed (-3) .done]) := by decide
/-- From reset, a placed word runs in the very next step (log entry 5). -/
theorem test_withFetchWord :
    (after (step (State.reset.withFetchWord 24 0x424220))).map (fun t => (t.pc, t.sp, t.fault)) =
      some (0x4242, 0x0101, none) := by decide

/-! Witnesses: for each statement with hypotheses, operands and a state that meet them together -/

theorem witness_DecodeOfEncodeIsIdentity : wellFormed (.unknownOpcode 0x00) = true ∧ wellFormed (.jsr 0x1234) = true := by
  decide
theorem witness_EncodeOfDecodeIsIdentity : decode [0xA5, 0x10, 0x00] = .instr (.ldaZp 0x10) [0x00] := by decide
/-- Each of the three lengths, with exactly enough bytes and with one too few. -/
theorem witness_LengthFollowsOpcodeByte :
    instrLength 0xA9 = 2 ∧ instrLength 0xA5 = 2 ∧ instrLength 0xB5 = 2 ∧ instrLength 0x20 = 3 ∧
    instrLength 0xFF = 1 ∧ decode [0xB5] = .refused (.missingOperand 0xB5) ∧
    decode [0x20, 0x00] = .refused (.missingOperand 0x20) ∧
    decode [0x20, 0x34, 0x12] = .instr (.jsr 0x1234) [] ∧ decode [0xFF] = .instr (.unknownOpcode 0xFF) [] := by
  decide
/-- Both sides of the bound, at the two addresses where they meet. -/
theorem witness_MemReadIsBoundsChecked :
    (0xFFFF : Nat) < 65536 ∧ 65536 ≤ (0x10000 : Nat) := by decide
theorem witness_MemWriteChangesOneByte :
    (after (match memWrite 0xFFFF 0x12 State.reset with | .ok t => .next t | .error f => .fault f)).map (·.mem) =
      some [(0xFFFF, 0x12)] ∧
    (match memWrite 0x10000 0x12 State.reset with | .ok _ => none | .error f => some f) =
      some (.outOfRange 0x10000) := by decide
/-- D-W3 and D-W4. -/
theorem witness_WriteWordIsLittleEndianAndChecked :
    (after (match writeWord 0x1234 0xFFFE State.reset with | .ok t => .next t | .error f => .fault f)).map (·.mem) =
      some [(0xFFFE, 0x34), (0xFFFF, 0x12)] ∧
    (match writeWord 0x1234 0xFFFF State.reset with | .ok _ => none | .error f => some f) =
      some (.outOfRange 0x10000) := by decide
theorem witness_MemoryFormIsCanonical :
    Memory.wf [(0x0001, 0x01), (0xFFFF, 0x02)] ∧ ¬ Memory.wf [(0x0001, 0x00)] ∧
    ¬ Memory.wf [(0x0002, 0x01), (0x0001, 0x01)] := by decide
theorem witness_ReadGivesMostRecentWrite : ∀ w ∈ [((0x0011 : Nat), (0x02 : Byte)), (0x0000, 0x03)], w.1 ≠ 0x0010 := by
  decide
theorem witness_LoadFrame :
    (after (exec (.ldaImm 0x84) State.reset)).isSome ∧ (after (exec (.ldaZp 0x10) State.reset)).isSome ∧
    (after (exec (.ldaZpX 0x10) State.reset)).isSome := by decide
theorem witness_StepLdaImmediate :
    (running 0xFFFF [0xA9, 0x55]).executing = true ∧ (running 0xFFFF [0xA9, 0x55]).loopContinues ∧
    (running 0xFFFF [0xA9, 0x55]).mem.read 0xFFFF = 0xA9 := by decide
theorem witness_StepLdaZeroPage :
    (running 0x0000 [0xA5, 0x01]).executing = true ∧ (running 0x0000 [0xA5, 0x01]).loopContinues ∧
    (running 0x0000 [0xA5, 0x01]).mem.read 0x0000 = 0xA5 := by decide
theorem witness_StepLdaZeroPageX :
    (running 0xFFFE [0xB5, 0xFE]).executing = true ∧ (running 0xFFFE [0xB5, 0xFE]).loopContinues ∧
    (running 0xFFFE [0xB5, 0xFE]).mem.read 0xFFFE = 0xB5 := by decide
/-- Both values of NEG_BIT, at an A where they differ. -/
theorem witness_UpdateZNRule : (0x80 : Byte).toNat / 128 % 2 = 1 ∧ (0x80 : Byte).toNat / 64 % 2 = 0 := by decide
theorem witness_JsrResult : ({ State.reset with sp := 0xFFFE } : State).sp ≠ 0xFFFF := by decide
theorem witness_JsrFaultsAtTopOfMemory : ({ State.reset with sp := 0xFFFF } : State).sp = 0xFFFF := by decide
theorem witness_StepJsr :
    (running 0xFFFE [0x20, 0x34, 0x12]).executing = true ∧ (running 0xFFFE [0x20, 0x34, 0x12]).loopContinues ∧
    (running 0xFFFE [0x20, 0x34, 0x12]).mem.read 0xFFFE = 0x20 ∧
    (running 0xFFFE [0x20, 0x34, 0x12]).sp ≠ 0xFFFF := by decide
theorem witness_JsrFaultEndsTheCommand :
    ({ running 0xFFFC [0x20, 0x34, 0x12] with sp := 0xFFFF } : State).executing = true ∧
    ({ running 0xFFFC [0x20, 0x34, 0x12] with sp := 0xFFFF } : State).loopContinues ∧
    ({ running 0xFFFC [0x20, 0x34, 0x12] with sp := 0xFFFF } : State).mem.read 0xFFFC = 0x20 ∧
    ({ running 0xFFFC [0x20, 0x34, 0x12] with sp := 0xFFFF } : State).sp = 0xFFFF := by decide
/-- Both clauses: just below the top and at it. -/
theorem witness_JsrFrame :
    (after (exec (.jsr 0x1234) { State.reset with sp := 0xFFFE })).map (·.mem) =
      some [(0xFFFE, 0xFE), (0xFFFF, 0xFF)] ∧
    (after (exec (.jsr 0x1234) { State.reset with sp := 0xFFFF })).map (·.mem) = some [] := by decide
theorem witness_ReturnAddressIsPlusTwo : State.reset.sp ≠ 0xFFFF := by decide
theorem witness_NestedCallsOverlap : ({ State.reset with sp := 0xFFFD } : State).sp.toNat < 65534 := by decide
theorem witness_CallForBothStackWidths :
    ({ State.reset with sp := 0xFFFE } : State).sp.toNat < 65535 ∧
    ({ State.reset with sp := 0x00FF } : State).sp.toNat < 256 := by decide
theorem witness_PushedBytesAreFetched : ({ State.reset with sp := 0x0200 } : State).sp ≠ 0xFFFF := by decide
theorem witness_StepUnknownOpcode :
    (running 0xFFFC [0xFF]).executing = true ∧ (running 0xFFFC [0xFF]).loopContinues ∧
    (running 0xFFFC [0xFF]).mem.read 0xFFFC = 0xFF ∧ (0xFF : Byte) ≠ 0xA9 ∧ (0xFF : Byte) ≠ 0xA5 ∧
    (0xFF : Byte) ≠ 0xB5 ∧ (0xFF : Byte) ≠ 0x20 := by decide
theorem witness_StepRunsDecodedInstruction :
    (running 0xFFFC [0xA9, 0x84]).executing = true ∧ (running 0xFFFC [0xA9, 0x84]).loopContinues ∧
    decode [(running 0xFFFC [0xA9, 0x84]).byteAt 0xFFFC, (running 0xFFFC [0xA9, 0x84]).byteAt 0xFFFD,
      (running 0xFFFC [0xA9, 0x84]).byteAt 0xFFFE] = .instr (.ldaImm 0x84) [0x00] := by decide
theorem witness_PcAfterEachInstruction : (∃ a, Instr.jsr 0x4242 = .jsr a) ∧ State.reset.sp ≠ 0xFFFF :=
  ⟨⟨_, rfl⟩, by decide⟩
theorem witness_ChargesAddUpToTableCost :
    wellFormed (.jsr 0x4242) = true ∧ State.reset.sp ≠ 0xFFFF ∧ opcodeCycles 0x20 = 6 ∧ opcodeCycles 0xFF = 1 := by
  decide
/-- Both outcomes of a JSR from an empty latch. -/
theorem witness_OnlyJsrAtTopRaises :
    (after (exec (.jsr 0) { State.reset with sp := 0xFFFF })).map (·.fault) = some (some stackTopFault) ∧
    (after (exec (.jsr 0) { State.reset with sp := 0xFFFE })).map (·.fault) = some none := by decide
/-- A load that changes A and a call that changes SP. -/
theorem witness_RegisterWriters :
    (after (exec (.ldaImm 1) State.reset)).map (·.a) = some 1 ∧
    (after (exec (.jsr 0) State.reset)).map (·.sp) = some 0x0101 := by decide
theorem witness_FlagWriters :
    (after (exec (.ldaImm 0) State.reset)).map (·.flags.z) = some true ∧ State.reset.flags.z = false := by decide
theorem witness_OnlyZeroPageXReadsX : ∀ b, Instr.ldaZp 0x10 ≠ .ldaZpX b := fun _ h => by cases h
theorem witness_DiagnosticsGrowByUnknownOpcodes :
    (after (step (running 0xFFFC [0x00]))).map (·.diagnostics) = some [⟨1, 0x00, 0xFFFC⟩] ∧
    (after (step (running 0xFFFC [0xA9]))).map (·.diagnostics) = some [] := by decide
/-- Both clauses: an empty latch with a budget of exactly 0, and a latch with budget left. -/
theorem witness_ExecuteEndsDoneOrFaulted :
    (({ running 0xFFFC [] with budget := 0 } : State).executing = true ∧
      ({ running 0xFFFC [] with budget := 0 } : State).fault = none ∧
      ({ running 0xFFFC [] with budget := 0 } : State).budget ≤ 0) ∧
    (({ running 0xFFFC [] with fault := some stackTopFault } : State).executing = true ∧
      ({ running 0xFFFC [] with fault := some stackTopFault } : State).fault = some stackTopFault) := by decide
theorem witness_LatchedExecuteDoesNothing :
    ({ waiting (.execute 5) with fault := some stackTopFault } : State).executing = false ∧
    ({ waiting (.execute 5) with fault := some stackTopFault } : State).fault = some stackTopFault ∧
    ({ waiting (.execute 5) with fault := some stackTopFault } : State).commands = [.execute 5] := by decide
/-- Both clauses: the step that sets the latch, and the Reset that clears it. -/
theorem witness_LatchSetByFaultClearedByReset :
    (after (step { running 0xFFFC [0x20] with sp := 0xFFFF })).map (·.fault) = some (some stackTopFault) ∧
    (after (step { waiting .reset with fault := some stackTopFault })).map (·.fault) = some none := by decide
theorem witness_ResetCommandRule : (waiting .reset).executing = false ∧ (waiting .reset).commands = [.reset] := by
  decide
/-- Each clause, with one command of its kind waiting, and none. -/
theorem witness_HostCommandEffects :
    (State.reset.executing = false ∧ State.reset.commands = []) ∧
    ((waiting (.writeMem 0xFFFF 0x01)).executing = false ∧
      (waiting (.writeMem 0xFFFF 0x01)).commands = [.writeMem 0xFFFF 0x01]) ∧
    ((waiting (.execute 0)).executing = false ∧ (waiting (.execute 0)).commands = [.execute 0]) ∧
    ((waiting .readState).executing = false ∧ (waiting .readState).commands = [.readState]) := by decide
/-- A register, SP and a flag, each with a value past its width. -/
theorem witness_SetRegWritesOneRegister :
    (after (step (waiting (.setReg .x 0x104)))).map (·.x) = some 0x04 ∧
    (after (step (waiting (.setReg .sp 0x10000)))).map (·.sp) = some 0x0000 ∧
    (after (step (waiting (.setReg (.flag .v) 3)))).map (·.flags.v) = some true := by decide
theorem witness_HostWaitsForRunningCommand : (running 0xFFFC [0xA9]).executing = true := by decide
theorem witness_ExecuteEndsWithinBudget :
    (running 0xFFFC [0x20]).executing = true ∧ (running 0xFFFC [0x20]).loopContinues ∧
    (after (step (running 0xFFFC [0x20]))).map (·.budget) = some 3 := by decide
theorem witness_StepKeepsInvariant : State.reset.Inv ∧ (after (step State.reset)).isSome :=
  ⟨⟨Memory.wf_nil, .inl rfl, (fun _ h => by cases h), (fun _ h => by cases h)⟩, by decide⟩
theorem witness_StepRefinesSpecStep :
    (running 0xFFFD [0x20, 0x34, 0x12]).executing = true ∧ (running 0xFFFD [0x20, 0x34, 0x12]).loopContinues := by
  decide
theorem witness_StepsRefineSpecExecute :
    (waiting (.execute 9)).executing = false ∧ (waiting (.execute 9)).commands = [.execute 9] := by decide
/-- Room for exactly two calls. -/
theorem witness_RunIsSafeWithStackRoom :
    ({ running 0xFFFC [0x20] with sp := 0xFFFD } : State).fault = none ∧
    ({ running 0xFFFC [0x20] with sp := 0xFFFD } : State).commands = [] ∧
    ({ running 0xFFFC [0x20] with sp := 0xFFFD } : State).sp.toNat + 2 ≤ 65535 := by decide

end Sys2Proof.Tests
end

section
/-! SUPPORT. Proofs about the host's side of the block (00_scope.md R7, R9; 10_state.md R31, R39): what SetReg
writes, and that a running Execute command neither reads nor changes the commands that wait. -/

namespace Sys2Proof.Machine

/-! SetReg -/

/-- A write of one flag is seen at that flag alone (R31). -/
theorem getFlag_setFlag (f g : FlagName) (v : Bool) (fl : Flags) :
    getFlag g (setFlag f v fl) = if g = f then v else getFlag g fl := by
  cases f <;> cases g <;> rfl

/-- A flag written by name takes bit 0 of the value (log entry 13). -/
theorem getFlag_writeReg_same (p : Params) (f : FlagName) (v : Nat) (s : State) :
    getFlag f (writeReg p (.flag f) v s).flags = true ↔ v % 2 = 1 := by
  simp [writeReg, getFlag_setFlag]

theorem getFlag_writeReg_other (p : Params) {f g : FlagName} (v : Nat) (s : State) (h : g ≠ f) :
    getFlag g (writeReg p (.flag f) v s).flags = getFlag g s.flags := by
  simp [writeReg, getFlag_setFlag, h]

/-- Settles O51: the idle block's step is `writeReg`, whose one record update answers the clause of each
register; a flag's clause is `getFlag_setFlag`. -/
theorem setRegWritesOneRegister : Obligations.SetRegWritesOneRegister := by
  unfold Obligations.SetRegWritesOneRegister
  intro s r v cs hidle hcmd
  refine ⟨_, step_of_command hidle hcmd, ?pc, ?sp, ?a, ?x, ?y, ?flag⟩
  case pc | sp => rintro rfl; exact ⟨rfl, BitVec.toNat_ofNat v 16⟩
  case a | x | y => rintro rfl; exact ⟨rfl, BitVec.toNat_ofNat v 8⟩
  case flag =>
    rintro f rfl
    exact ⟨rfl, getFlag_writeReg_same params f v _, fun g hg => getFlag_writeReg_other params v _ hg⟩

/-! The waiting commands -/

/-- The call does the same whatever host commands wait. -/
theorem callSubroutine_with_commands (p : Params) (target : Word) (s : State) (cs : List Command) :
    callSubroutine p target { s with commands := cs } =
      { callSubroutine p target s with commands := cs } := by
  by_cases h : s.sp = 0xFFFF
  · rw [callSubroutine_outOfRange p target s h]
    exact callSubroutine_outOfRange p target _ h
  · rw [callSubroutine_inRange p target s h]
    exact callSubroutine_inRange p target _ h

/-- An instruction does the same whatever host commands wait. -/
theorem exec_with_commands {i : Instr} {s t : State} (cs : List Command) (h : exec i s = .next t) :
    exec i { s with commands := cs } = .next { t with commands := cs } := by
  cases i with
  | jsr a =>
    cases h
    exact congrArg Host.Outcome.next
      (callSubroutine_with_commands params a (consumeWord (consumeByte s)) cs)
  | ldaImm | ldaZp | ldaZpX | unknownOpcode => cases h; rfl

/-- Settles O52: the loop's test, the instruction fetched and the command's end do not read the queue, and
neither does an instruction (`exec_with_commands`), which keeps it (`exec_keeps_host`). -/
theorem hostWaitsForRunningCommand : Obligations.HostWaitsForRunningCommand := by
  unfold Obligations.HostWaitsForRunningCommand
  intro s cs hrun
  have hrun' : ({ s with commands := cs } : State).executing = true := hrun
  by_cases hl : s.loopContinues
  · have hl' : ({ s with commands := cs } : State).loopContinues := hl
    obtain ⟨t, ht⟩ := exec_total (fetchInstr s) s
    obtain ⟨-, hcmd, -⟩ := exec_keeps_host ht
    refine ⟨t, (step_of_running hrun hl).trans ht, hcmd, ?_⟩
    exact (step_of_running hrun' hl').trans (exec_with_commands cs ht)
  · have hl' : ¬ ({ s with commands := cs } : State).loopContinues := hl
    exact ⟨finishExecute s, step_of_ending hrun hl, rfl, step_of_ending hrun' hl'⟩

end Sys2Proof.Machine
end

section
/-! SUPPORT. What each kind of instruction leaves, as one state: a load, a call with room on the stack, a call at
the top of memory, an unknown opcode (10_state.md R22; 41_load.md; 42_subroutine.md R120). Later proofs take an
instruction apart with `exec_next_cases` and do not unfold its meaning. -/

namespace Sys2Proof.Machine

/-- A load, whichever its mode, loads some byte, with PC past two bytes and 2 to 4 cycles. -/
theorem exec_load {i : Instr} (hi : ∃ b, i = .ldaImm b ∨ i = .ldaZp b ∨ i = .ldaZpX b) (s : State) :
    ∃ n v, 2 ≤ n ∧ n ≤ 4 ∧
      exec i s = .next (loadA params v (chargeCycles n { s with pc := s.pc + 2 })) := by
  rcases exec_cases i s with h | ⟨a, rfl, -⟩ | ⟨op, rfl, -⟩
  · exact h
  · simp at hi
  · simp at hi

/-- JSR below the top of memory: the address of its own last byte pushed, 6 cycles (R120 to R122). -/
theorem exec_jsr_inRange (target : Word) {s : State} (h : s.sp ≠ 0xFFFF) :
    exec (.jsr target) s = .next { s with
      mem := (s.mem.write s.sp.toNat (lowByte (s.pc + 2))).write (s.sp.toNat + 1) (highByte (s.pc + 2)),
      sp := s.sp + 1, pc := target, budget := s.budget - 6 } := by
  have hret : s.pc + 1 + 2 - 1 = s.pc + 2 := by bv_omega
  have hcost : s.budget - 1 - 2 - 3 = s.budget - 6 := by omega
  have hcall := callSubroutine_inRange params target (consumeWord (consumeByte s)) h
  simp only [consumeWord_pc, consumeByte_pc, consumeWord_budget, consumeByte_budget, hret, hcost] at hcall
  exact congrArg Host.Outcome.next hcall

/-- JSR at the top of memory: the fault latched, PC past the operands, 3 cycles (R120, R142). -/
theorem exec_jsr_outOfRange (target : Word) {s : State} (h : s.sp = 0xFFFF) :
    exec (.jsr target) s = .next { s with
      pc := s.pc + 3, budget := s.budget - 3, fault := some stackTopFault } := by
  have hpc : s.pc + 1 + 2 = s.pc + 3 := by bv_omega
  have hcost : s.budget - 1 - 2 = s.budget - 3 := by omega
  rw [← hpc, ← hcost]
  exact congrArg Host.Outcome.next (callSubroutine_outOfRange params target (consumeWord (consumeByte s)) h)

theorem exec_unknownOpcode (op : Byte) (s : State) :
    exec (.unknownOpcode op) s = .next (emitUnknownOpcode op s.pc (consumeByte s)) := rfl

/-- Every instruction that answers `t`, with the whole of `t`, by kind of instruction. -/
theorem exec_next_cases {i : Instr} {s t : State} (h : exec i s = .next t) :
    ((∃ b, i = .ldaImm b ∨ i = .ldaZp b ∨ i = .ldaZpX b) ∧ ∃ n v, 2 ≤ n ∧ n ≤ 4 ∧
      t = loadA params v (chargeCycles n { s with pc := s.pc + 2 })) ∨
    (∃ target, i = .jsr target ∧ s.sp ≠ 0xFFFF ∧ t = { s with
      mem := (s.mem.write s.sp.toNat (lowByte (s.pc + 2))).write (s.sp.toNat + 1) (highByte (s.pc + 2)),
      sp := s.sp + 1, pc := target, budget := s.budget - 6 }) ∨
    (∃ target, i = .jsr target ∧ s.sp = 0xFFFF ∧ t = { s with
      pc := s.pc + 3, budget := s.budget - 3, fault := some stackTopFault }) ∨
    (∃ op, i = .unknownOpcode op ∧ t = emitUnknownOpcode op s.pc (consumeByte s)) := by
  have load (hi : ∃ b, i = .ldaImm b ∨ i = .ldaZp b ∨ i = .ldaZpX b) :
      ∃ n v, 2 ≤ n ∧ n ≤ 4 ∧ t = loadA params v (chargeCycles n { s with pc := s.pc + 2 }) := by
    obtain ⟨n, v, hlo, hhi, he⟩ := exec_load hi s
    exact ⟨n, v, hlo, hhi, Host.Outcome.next.inj (h.symm.trans he)⟩
  cases i with
  | ldaImm b => exact .inl ⟨⟨b, .inl rfl⟩, load ⟨b, .inl rfl⟩⟩
  | ldaZp b => exact .inl ⟨⟨b, .inr (.inl rfl)⟩, load ⟨b, .inr (.inl rfl)⟩⟩
  | ldaZpX b => exact .inl ⟨⟨b, .inr (.inr rfl)⟩, load ⟨b, .inr (.inr rfl)⟩⟩
  | jsr target =>
    by_cases hsp : s.sp = 0xFFFF
    · rw [exec_jsr_outOfRange target hsp] at h
      exact .inr (.inr (.inl ⟨target, rfl, hsp, (Host.Outcome.next.inj h).symm⟩))
    · rw [exec_jsr_inRange target hsp] at h
      exact .inr (.inl ⟨target, rfl, hsp, (Host.Outcome.next.inj h).symm⟩)
  | unknownOpcode op => exact .inr (.inr (.inr ⟨op, rfl, (Host.Outcome.next.inj h).symm⟩))

/-- The instruction at PC is a call only when its opcode byte is 0x20 (R65). -/
theorem fetchInstr_jsr {s : State} {target : Word} (h : fetchInstr s = .jsr target) :
    s.byteAt s.pc = 0x20 := by
  rw [fetchInstr, decodeBytes_eq] at h
  split_ifs at h with _ _ _ g4
  exact g4

end Sys2Proof.Machine
end

section
/-! SUPPORT. A running Execute command ends within its budget (40_fetch_dispatch.md R87, R88, R91, R92). The idea:
every instruction charges at least 1 cycle, so the budget is the measure of the induction; and it charges at
most 6, so a budget that starts at -5 or above never falls below -5. -/

namespace Sys2Proof.Machine

/-- An instruction, a faulting call included, charges 1 to 6 cycles (R71, R92). -/
theorem exec_budget_bounds {i : Instr} {s t : State} (h : exec i s = .next t) :
    s.budget - 6 ≤ t.budget ∧ t.budget ≤ s.budget - 1 := by
  rcases exec_next_cases h with ⟨-, n, v, hlo, hhi, rfl⟩ | ⟨_, -, -, rfl⟩ | ⟨_, -, -, rfl⟩ | ⟨_, -, rfl⟩
  · simp only [loadA_budget, chargeCycles_budget]
    omega
  · dsimp only
    omega
  · dsimp only
    omega
  · simp only [emitUnknownOpcode_budget, consumeByte_budget]
    omega

theorem exitStatus_eq_done_iff (s : State) : exitStatus s = .done ↔ s.fault = none := by
  cases h : s.fault <;> simp [exitStatus, h]

theorem exitStatus_eq_faulted_iff (s : State) (f : Fault) :
    exitStatus s = .faulted f ↔ s.fault = some f := by
  cases h : s.fault <;> simp [exitStatus, h]

/-- What holds of the state `t` in which the command running in `s` has returned. -/
structure EndedFrom (s t : State) : Prop where
  idle        : t.executing = false
  response    : t.responses = s.responses ++ [.executed t.budget (exitStatus t)]
  spent       : t.fault = none → t.budget ≤ 0
  lowerBound  : -5 ≤ s.budget → -5 ≤ t.budget

/-- A command that may not go on ends on the spot, its budget as it stands. -/
theorem endedFrom_finishExecute {s : State} (hl : ¬ s.loopContinues) : EndedFrom s (finishExecute s) where
  idle := rfl
  response := rfl
  spent hf := Int.not_lt.1 fun hb => hl ⟨hf, hb⟩
  lowerBound hb := hb

/-- Where a command ends from the state after an instruction, it ends from the state before it. -/
theorem EndedFrom.of_exec {i : Instr} {s s' t : State} (hb : 0 < s.budget) (he : exec i s = .next s')
    (h : EndedFrom s' t) : EndedFrom s t where
  idle := h.idle
  response := by
    obtain ⟨-, -, hresp⟩ := exec_keeps_host he
    rw [h.response, hresp]
  spent := h.spent
  lowerBound _ := by
    obtain ⟨hlow, -⟩ := exec_budget_bounds he
    exact h.lowerBound (by omega)

/-- A running command ends within `max(budget, 0)` instructions and one step more. -/
theorem running_ends {s : State} (hx : s.executing = true) :
    ∃ k t, k ≤ s.budget.toNat + 1 ∧ Host.Core.run Sys2Proof.core k s = .next t ∧ EndedFrom s t := by
  induction hn : s.budget.toNat using Nat.strong_induction_on generalizing s with
  | _ n ih =>
    by_cases hl : s.loopContinues
    · obtain ⟨s', he⟩ := exec_total (fetchInstr s) s
      obtain ⟨hx', -, -⟩ := exec_keeps_host he
      obtain ⟨-, hlower⟩ := exec_budget_bounds he
      have hdec : s'.budget.toNat < n := by have := hl.2; omega
      obtain ⟨k, t, hk, hrun, hend⟩ := ih _ hdec (hx'.trans hx) rfl
      have hstep : step s = .next s' := (step_of_running hx hl).trans he
      exact ⟨k + 1, t, by omega, (core_run_succ k hstep).trans hrun, hend.of_exec hl.2 he⟩
    · exact ⟨1, finishExecute s, by omega, core_run_succ 0 (step_of_ending hx hl),
        endedFrom_finishExecute hl⟩

/-- Settles O54: one iteration's bounds are `exec_budget_bounds`; the end is `running_ends`, by induction on the
budget, and `EndedFrom` holds what the statement says of it. -/
theorem executeEndsWithinBudget : Obligations.ExecuteEndsWithinBudget := by
  unfold Obligations.ExecuteEndsWithinBudget
  refine ⟨fun s t hx hf hb ht => ?_, fun s hx => ?_⟩
  · rw [step_of_running hx ⟨hf, hb⟩] at ht
    exact exec_budget_bounds ht
  · obtain ⟨k, t, hk, hrun, hend⟩ := running_ends hx
    refine ⟨k, t, exitStatus t, hk, hrun, hend.idle, hend.response, fun hdone => ?_,
      fun f => (exitStatus_eq_faulted_iff t f).1⟩
    have hf := (exitStatus_eq_done_iff t).1 hdone
    exact ⟨hf, fun hb => ⟨hend.lowerBound (by omega), hend.spent hf⟩⟩

end Sys2Proof.Machine
end

section
/-! SUPPORT. What an instruction reads and writes of PC, the registers and the flags (10_state.md R22 to R32). -/

namespace Sys2Proof.Machine

/-- With SP_WIDTH = 8 a 16-bit value is held modulo 256 (R24). -/
theorem truncSp_w8_toNat (v : Word) : (truncSp .w8 v).toNat = v.toNat % 256 := by
  simp only [truncSp, BitVec.toNat_setWidth]
  omega

theorem ne_top_of_toNat_lt {sp : Word} (h : sp.toNat < 65535) : sp ≠ 0xFFFF := by
  rintro rfl
  exact absurd h (by decide)

/-- Settles O32: for an SP below 0xFFFF, which every SP of width 8 is, the call is `callSubroutine_inRange`. -/
theorem callForBothStackWidths : Obligations.CallForBothStackWidths := by
  unfold Obligations.CallForBothStackWidths
  refine ⟨rfl, fun n target s => ⟨fun h16 => ?_, fun h8 => ?_⟩⟩
  · rw [callSubroutine_inRange _ _ _ (ne_top_of_toNat_lt h16)]
    exact BitVec.toNat_add s.sp 1
  · rw [callSubroutine_inRange _ _ _ (ne_top_of_toNat_lt (by omega))]
    refine ⟨?_, rfl, rfl⟩
    have hadd : (s.sp + 1).toNat = s.sp.toNat + 1 := by bv_omega
    exact (truncSp_w8_toNat (s.sp + 1)).trans (by rw [hadd])

/-- Settles O37: the kind of instruction decides PC (`exec_next_cases`); the faulting call is excluded. -/
theorem pcAfterEachInstruction : Obligations.PcAfterEachInstruction := by
  unfold Obligations.PcAfterEachInstruction
  intro i s hroom
  obtain ⟨t, ht⟩ := exec_total i s
  refine ⟨t, ht, ?_⟩
  rcases exec_next_cases ht with ⟨hi, n, v, -, -, rfl⟩ | ⟨target, rfl, -, rfl⟩ | ⟨target, rfl, hsp, -⟩ |
    ⟨op, rfl, rfl⟩
  · refine ⟨fun _ _ => BitVec.toNat_add s.pc 2, ?_, ?_⟩
    · rintro a rfl
      simp at hi
    · rintro op rfl
      simp at hi
  · simp
  · exact absurd hsp (hroom ⟨target, rfl⟩)
  · simp [BitVec.toNat_add]

/-- Settles O40. -/
theorem registerWriters : Obligations.RegisterWriters := by
  unfold Obligations.RegisterWriters
  intro i s t ht
  rcases exec_next_cases ht with ⟨hi, n, v, -, -, rfl⟩ | ⟨target, rfl, -, rfl⟩ | ⟨target, rfl, -, rfl⟩ |
    ⟨op, rfl, rfl⟩
  · exact ⟨rfl, rfl, fun _ => hi, fun hsp => absurd rfl hsp⟩
  · exact ⟨rfl, rfl, fun ha => absurd rfl ha, fun _ => ⟨⟨target, rfl⟩, rfl⟩⟩
  · exact ⟨rfl, rfl, fun ha => absurd rfl ha, fun hsp => absurd rfl hsp⟩
  · exact ⟨rfl, rfl, fun ha => absurd rfl ha, fun hsp => absurd rfl hsp⟩

/-- Settles O41. -/
theorem flagWriters : Obligations.FlagWriters := by
  unfold Obligations.FlagWriters
  intro i s t ht
  rcases exec_next_cases ht with ⟨hi, n, v, -, -, rfl⟩ | ⟨_, -, -, rfl⟩ | ⟨_, -, -, rfl⟩ | ⟨_, -, rfl⟩
  · exact ⟨rfl, rfl, rfl, rfl, rfl, fun _ => hi⟩
  · exact ⟨rfl, rfl, rfl, rfl, rfl, fun hne => absurd rfl hne⟩
  · exact ⟨rfl, rfl, rfl, rfl, rfl, fun hne => absurd rfl hne⟩
  · exact ⟨rfl, rfl, rfl, rfl, rfl, fun hne => absurd rfl hne⟩

/-- Settles O42: no meaning reads a flag or Y; the call's branch is on SP alone. -/
theorem flagsAndYSteerNothing : Obligations.FlagsAndYSteerNothing := by
  unfold Obligations.FlagsAndYSteerNothing
  intro i s fl y
  cases i with
  | jsr target =>
    by_cases h : s.sp = 0xFFFF
    · exact ⟨_, _, exec_jsr_outOfRange target h,
        exec_jsr_outOfRange target (s := { s with flags := fl, y := y }) h, rfl⟩
    · exact ⟨_, _, exec_jsr_inRange target h,
        exec_jsr_inRange target (s := { s with flags := fl, y := y }) h, rfl⟩
  | ldaImm | ldaZp | ldaZpX | unknownOpcode => exact ⟨_, _, rfl, rfl, rfl⟩

/-- Settles O43: only the effective address of LDA zp8,X reads X; the call's branch is on SP alone. -/
theorem onlyZeroPageXReadsX : Obligations.OnlyZeroPageXReadsX := by
  unfold Obligations.OnlyZeroPageXReadsX
  intro i s x hi
  cases i with
  | jsr target =>
    by_cases h : s.sp = 0xFFFF
    · exact ⟨_, exec_jsr_outOfRange target h, exec_jsr_outOfRange target (s := { s with x := x }) h⟩
    · exact ⟨_, exec_jsr_inRange target h, exec_jsr_inRange target (s := { s with x := x }) h⟩
  | ldaZpX b => exact absurd rfl (hi b)
  | ldaImm | ldaZp | unknownOpcode => exact ⟨_, rfl, rfl⟩

/-- Settles O21, by the one state every load leaves (`exec_load`). -/
theorem loadFrame : Obligations.LoadFrame := by
  unfold Obligations.LoadFrame
  intro i s t hi ht
  obtain ⟨n, v, -, -, he⟩ := exec_load hi s
  obtain rfl : loadA params v (chargeCycles n { s with pc := s.pc + 2 }) = t :=
    Host.Outcome.next.inj (he.symm.trans ht)
  exact ⟨rfl, rfl, rfl, rfl, rfl, rfl, rfl, rfl, rfl, rfl, rfl, rfl, rfl, fun _ => rfl⟩

end Sys2Proof.Machine
end

section
/-! SUPPORT. The fault latch, the diagnostic stream and the host's commands, at the level of a step
(10_state.md R35 to R39; 60_exceptions.md R141, R142; 70_reset_and_hazards.md R153, R160). -/

namespace Sys2Proof.Machine

/-- No host command touches the diagnostic stream (R36). -/
theorem runCommand_diagnostics (c : Command) (s : State) :
    (runCommand c s).diagnostics = s.diagnostics := by
  cases c with
  | setReg r v =>
    obtain ⟨-, -, -, hdiag, -⟩ := writeReg_keeps params r v s
    exact hdiag
  | reset | writeMem | execute | readState => rfl

/-- A host command other than Reset leaves the latch (R35). -/
theorem runCommand_fault {c : Command} (s : State) (h : c ≠ .reset) :
    (runCommand c s).fault = s.fault := by
  cases c with
  | reset => exact absurd rfl h
  | setReg r v =>
    obtain ⟨-, hfault, -⟩ := writeReg_keeps params r v s
    exact hfault
  | writeMem | execute | readState => rfl

/-- An instruction leaves the latch, or is a call at the top of memory that sets it (R46). -/
theorem exec_fault_kept_or_set {i : Instr} {s t : State} (h : exec i s = .next t) :
    t.fault = s.fault ∨ ∃ target, i = .jsr target ∧ s.sp = 0xFFFF ∧ t.fault = some stackTopFault := by
  rcases exec_next_cases h with ⟨-, n, v, -, -, rfl⟩ | ⟨_, -, -, rfl⟩ | ⟨target, hi, hsp, rfl⟩ | ⟨_, -, rfl⟩
  · exact .inl rfl
  · exact .inl rfl
  · exact .inr ⟨target, hi, hsp, rfl⟩
  · exact .inl rfl

/-- An instruction leaves the diagnostic stream, or is an unknown opcode that appends its record (R141). -/
theorem exec_diagnostics_kept_or_appended {i : Instr} {s t : State} (h : exec i s = .next t) :
    t.diagnostics = s.diagnostics ∨
      ∃ op, i = .unknownOpcode op ∧ t.diagnostics = s.diagnostics ++ [⟨codeUnknownOpcode, op, s.pc⟩] := by
  rcases exec_next_cases h with ⟨-, n, v, -, -, rfl⟩ | ⟨_, -, -, rfl⟩ | ⟨_, -, -, rfl⟩ | ⟨op, hi, rfl⟩
  · exact .inl rfl
  · exact .inl rfl
  · exact .inl rfl
  · exact .inr ⟨op, hi, rfl⟩

/-- Settles O44: of a step's cases only an unknown opcode at PC appends, and `fetchInstr_unknown` says which
byte that is. -/
theorem diagnosticsGrowByUnknownOpcodes : Obligations.DiagnosticsGrowByUnknownOpcodes := by
  unfold Obligations.DiagnosticsGrowByUnknownOpcodes
  intro s t ht
  rcases step_cases ht with ⟨hx, ⟨hf, hb⟩, he⟩ | ⟨-, -, rfl⟩ | ⟨c, cs, -, -, rfl⟩ | ⟨-, -, rfl⟩
  · rcases exec_diagnostics_kept_or_appended he with hkept | ⟨op, hop, happ⟩
    · exact .inl hkept
    · obtain ⟨hbyte, hnone⟩ := fetchInstr_unknown hop
      subst hbyte
      exact .inr ⟨hx, hf, hb, hnone, happ⟩
  · exact .inl rfl
  · exact .inl (runCommand_diagnostics c _)
  · exact .inl rfl

/-- Everything a step can do to the latch: leave it, set it in a call at the top of memory, or clear it in the
host's Reset (R35, R142). -/
theorem step_fault_cases {s t : State} (h : step s = .next t) :
    t.fault = s.fault ∨
    (s.executing = true ∧ s.fault = none ∧ s.sp = 0xFFFF ∧ s.byteAt s.pc = 0x20 ∧
      t.fault = some stackTopFault) ∨
    (s.executing = false ∧ t.fault = none ∧ ∃ cs, s.commands = .reset :: cs) := by
  rcases step_cases h with ⟨hx, ⟨hf, -⟩, he⟩ | ⟨-, -, rfl⟩ | ⟨c, cs, hx, hc, rfl⟩ | ⟨-, -, rfl⟩
  · rcases exec_fault_kept_or_set he with hkept | ⟨target, hi, hsp, hset⟩
    · exact .inl hkept
    · exact .inr (.inl ⟨hx, hf, hsp, fetchInstr_jsr hi, hset⟩)
  · exact .inl rfl
  · by_cases hreset : c = .reset
    · subst hreset
      exact .inr (.inr ⟨hx, rfl, cs, hc⟩)
    · exact .inl (runCommand_fault _ hreset)
  · exact .inl rfl

/-- Settles O47, by `step_fault_cases`: a call sets the latch only from empty, and Reset leaves it empty. -/
theorem latchSetByFaultClearedByReset : Obligations.LatchSetByFaultClearedByReset := by
  unfold Obligations.LatchSetByFaultClearedByReset
  intro s t ht
  rcases step_fault_cases ht with hkept | ⟨hx, hf, hsp, hop, hset⟩ | ⟨hx, hcleared, hreset⟩
  · exact ⟨fun hnone hsome => absurd (hkept.trans hnone) hsome, fun _ hf => .inl (hkept.trans hf)⟩
  · exact ⟨fun _ _ => ⟨hx, hsp, hop, hset⟩, fun f hsome => by simp [hf] at hsome⟩
  · exact ⟨fun _ hsome => absurd hcleared hsome, fun _ _ => .inr ⟨hx, hcleared, hreset⟩⟩

/-- An idle block with no command waiting stays as it is (R153, log entry 11). -/
theorem step_of_idle {s : State} (hx : s.executing = false) (hc : s.commands = []) :
    step s = .next s := by
  simp [step, hx, hostTurn, hc]

/-- A read after a write of one byte. -/
theorem Memory.read_write (m : Memory) (a b : Nat) (v : Byte) :
    (m.write a v).read b = if b = a then v else m.read b := by
  split
  · next h => rw [h, Memory.read_write_same]
  · next h => exact Memory.read_write_other m v h

/-- Settles O50: each clause is the command's own record update, by `step_of_command`. -/
theorem hostCommandEffects : Obligations.HostCommandEffects := by
  unfold Obligations.HostCommandEffects
  intro s hx
  refine ⟨step_of_idle hx, fun a v cs hc => ?_, fun b cs hc => ?_, fun cs hc => ?_⟩
  · exact ⟨_, step_of_command hx hc, rfl, fun b => Memory.read_write s.mem a.toNat b v⟩
  · rw [step_of_command hx hc]
    rfl
  · rw [step_of_command hx hc]
    rfl

/-- A running command that meets a latched fault returns it, with the budget as it stands (R87, R91). -/
theorem step_of_latched {s : State} {f : Fault} (hx : s.executing = true) (hf : s.fault = some f) :
    step s = .next { s with
      executing := false, responses := s.responses ++ [.executed s.budget (.faulted f)] } := by
  rw [step_of_ending hx (by simp [hf]), finishExecute, (exitStatus_eq_faulted_iff s f).2 hf]

/-- Settles O46: the first step takes the command, the second meets the latch and ends it (R87). -/
theorem latchedExecuteDoesNothing : Obligations.LatchedExecuteDoesNothing := by
  unfold Obligations.LatchedExecuteDoesNothing
  intro s f b cs hx hf hc
  have htaken : step s = .next (startExecute b { s with commands := cs }) := step_of_command hx hc
  have hended := step_of_latched (s := startExecute b { s with commands := cs }) rfl hf
  rw [core_run_succ 1 htaken, core_run_succ 0 hended, hx]
  rfl

/-- Settles O48: the step is `hostReset`, field by field. -/
theorem resetCommandRule : Obligations.ResetCommandRule := by
  unfold Obligations.ResetCommandRule
  intro s cs hx hc
  exact ⟨_, step_of_command hx hc, rfl, rfl, rfl, rfl, rfl, rfl, Memory.read_nil, rfl, rfl, rfl, hx, rfl, rfl⟩

/-- Settles O49: each field is the value written in `State.reset`. -/
theorem resetStateValues : Obligations.ResetStateValues := by
  unfold Obligations.ResetStateValues
  exact ⟨rfl, rfl, rfl, rfl, rfl, rfl, Memory.read_nil, rfl⟩

/-- Settles O56: the memory is the empty list, the latch is empty, and nothing has been sent out. -/
theorem resetMeetsInvariant : Obligations.ResetMeetsInvariant where
  memory := Memory.wf_nil
  latch := .inl rfl
  diagnostics _ h := absurd h List.not_mem_nil
  responses _ h := absurd h List.not_mem_nil

end Sys2Proof.Machine
end

section
/-! SUPPORT. The bounded memory accesses and the canonical form of the memory image (20_memory.md R40 to R44, R52). -/

namespace Sys2Proof.Machine

/-! MemRead and MemWrite -/

theorem memRead_inRange {a : Nat} (s : State) (h : a < Config.memSize) :
    memRead a s = .ok (s.mem.read a) := if_pos h

theorem memRead_outOfRange {a : Nat} (s : State) (h : Config.memSize ≤ a) :
    memRead a s = .error (.outOfRange a) := if_neg (Nat.not_lt.2 h)

theorem memWrite_outOfRange {a : Nat} (v : Byte) (s : State) (h : Config.memSize ≤ a) :
    memWrite a v s = .error (.outOfRange a) := if_neg (Nat.not_lt.2 h)

/-- Settles O7: the two sides of MemRead's bounds check. -/
theorem memReadIsBoundsChecked : Obligations.MemReadIsBoundsChecked := by
  unfold Obligations.MemReadIsBoundsChecked
  exact fun addr s => ⟨memRead_inRange s, memRead_outOfRange s⟩

/-- Settles O8: the write in range is one update of `mem`, read back by `Memory.read_write`. -/
theorem memWriteChangesOneByte : Obligations.MemWriteChangesOneByte := by
  unfold Obligations.MemWriteChangesOneByte
  intro addr v s
  refine ⟨fun h => ⟨_, memWrite_inRange v s h, rfl, fun b => ?_⟩, memWrite_outOfRange v s⟩
  exact Memory.read_write s.mem addr b v

/-- Settles O9: the two sides of WriteWord's one check; the bytes are read back by `Memory.read_write_two`. -/
theorem writeWordIsLittleEndianAndChecked : Obligations.WriteWordIsLittleEndianAndChecked := by
  unfold Obligations.WriteWordIsLittleEndianAndChecked
  intro value address s
  refine ⟨writeWord_outOfRange value s, fun h => ⟨_, writeWord_inRange value s h, rfl, fun b => ?_⟩⟩
  dsimp only
  rw [Memory.read_write_two, apply_ite BitVec.toNat, apply_ite BitVec.toNat, lowByte_toNat, highByte_toNat]

/-- Settles O11, by induction on the later writes: each leaves the byte at the address alone. -/
theorem readGivesMostRecentWrite : Obligations.ReadGivesMostRecentWrite := by
  unfold Obligations.ReadGivesMostRecentWrite
  intro m a v later hlater
  refine List.foldlRecOn (motive := fun n : Memory => n.read a = v) later _ (Memory.read_write_same m a v) ?_
  intro n hn w hw
  exact (Memory.read_write_other n w.2 (hlater w hw).symm).trans hn

/-! The canonical form -/

/-- In a rising list an entry is what a read of its address gives. -/
theorem Memory.read_of_mem {m : Memory} {c : Host.Cell} (hm : m.Pairwise fun c d => c.1 < d.1) (hc : c ∈ m) :
    m.read c.1 = c.2 := by
  induction m with
  | nil => cases hc
  | cons d t ih =>
    obtain ⟨hd, ht⟩ := List.pairwise_cons.1 hm
    rcases List.mem_cons.1 hc with rfl | hc
    · exact if_pos rfl
    · exact (if_neg (Nat.ne_of_lt (hd c hc))).trans (ih ht hc)

/-- A read that is not blank has an entry. -/
theorem Memory.mem_of_read {m : Memory} {a : Nat} (h : m.read a ≠ Memory.blank) : (a, m.read a) ∈ m := by
  induction m with
  | nil => exact absurd rfl h
  | cons d t ih =>
    obtain ⟨k, w⟩ := d
    by_cases hk : k = a
    · simp [Memory.read, hk]
    · rw [Memory.read, if_neg hk] at h ⊢
      exact List.mem_cons_of_mem _ (ih h)

/-- The entries of a canonical image are among those of any image that reads alike below 65536. -/
theorem Memory.subset_of_read_eq {m n : Memory} (hm : m.wf) (h : ∀ a, a < 65536 → m.read a = n.read a) :
    m ⊆ n := by
  intro c hc
  obtain ⟨hrange, hne⟩ := hm.2 c hc
  have hread : n.read c.1 = c.2 := (h c.1 hrange).symm.trans (Memory.read_of_mem hm.1 hc)
  have hmem : (c.1, n.read c.1) ∈ n := Memory.mem_of_read (hread.symm ▸ hne)
  rwa [hread] at hmem

theorem Memory.nodup_of_wf {m : Memory} (hm : m.wf) : m.Nodup :=
  hm.1.imp fun hlt heq => Nat.ne_of_lt hlt (congrArg Prod.fst heq)

/-- Canonical images that read alike have the same entries, and rising addresses fix their order (R52). -/
theorem Memory.eq_of_read_eq {m n : Memory} (hm : m.wf) (hn : n.wf)
    (h : ∀ a, a < 65536 → m.read a = n.read a) : m = n := by
  have hmn : m ⊆ n := Memory.subset_of_read_eq hm h
  have hnm : n ⊆ m := Memory.subset_of_read_eq hn fun a ha => (h a ha).symm
  have hperm : m.Perm n :=
    (List.perm_ext_iff_of_nodup (Memory.nodup_of_wf hm) (Memory.nodup_of_wf hn)).2 fun c => ⟨(hmn ·), (hnm ·)⟩
  exact hperm.eq_of_pairwise (fun c d _ _ hcd hdc => absurd hcd (Nat.lt_asymm hdc)) hm.1 hn.1

/-- Settles O10. -/
theorem memoryFormIsCanonical : Obligations.MemoryFormIsCanonical := by
  unfold Obligations.MemoryFormIsCanonical
  exact ⟨fun m a v => Memory.write_wf v, fun m n => Memory.eq_of_read_eq⟩

end Sys2Proof.Machine
end

section
/-! SUPPORT. What a call's push and its one fault mean for the instructions and steps after it (20_memory.md R46,
R55; 42_subroutine.md R120, R122). -/

namespace Sys2Proof.Machine

/-- Settles O33: the next fetch reads the two pushed bytes at SP and SP + 1; the third address, SP + 2 modulo 2^16,
is neither of the two, so its byte is the old one. -/
theorem pushedBytesAreFetched : Obligations.PushedBytesAreFetched := by
  unfold Obligations.PushedBytesAreFetched
  intro s hsp
  refine ⟨_, exec_jsr_inRange s.sp hsp, ?_⟩
  have hroom : s.sp.toNat + 1 < 65536 := sp_inRange hsp
  have hsecond : (s.sp + 1).toNat = s.sp.toNat + 1 := by bv_omega
  have hthird : (s.sp + 2).toNat = (s.sp.toNat + 2) % 65536 := BitVec.toNat_add s.sp 2
  have hne : s.sp.toNat + 1 ≠ s.sp.toNat := Nat.succ_ne_self _
  have hne₁ : (s.sp.toNat + 2) % 65536 ≠ s.sp.toNat := by omega
  have hne₂ : (s.sp.toNat + 2) % 65536 ≠ s.sp.toNat + 1 := by omega
  simp only [fetchInstr, State.byteAt, Memory.read_write_two, hsecond, hthird, hne, hne₁, hne₂, if_true, if_false]

/-- A call at the top of memory latches the one reachable fault (R46). -/
theorem exec_jsr_sets_fault {target : Word} {s t : State} (hsp : s.sp = 0xFFFF)
    (h : exec (.jsr target) s = .next t) : t.fault = some stackTopFault := by
  rw [exec_jsr_outOfRange target hsp] at h
  cases h
  rfl

/-- Settles O39: an instruction keeps the empty latch unless it is the call that `exec_jsr_sets_fault` speaks of. -/
theorem onlyJsrAtTopRaises : Obligations.OnlyJsrAtTopRaises := by
  unfold Obligations.OnlyJsrAtTopRaises
  intro i s hf
  obtain ⟨t, ht⟩ := exec_total i s
  refine ⟨t, ht, ⟨fun hset => ?_, ?_⟩, fun hset => ?_⟩
  · rcases exec_fault_kept_or_set ht with hkept | ⟨target, hi, hsp, -⟩
    · exact absurd (hkept.trans hf) hset
    · exact ⟨⟨target, hi⟩, hsp⟩
  · rintro ⟨⟨target, rfl⟩, hsp⟩
    simp [exec_jsr_sets_fault hsp ht]
  · rcases exec_fault_kept_or_set ht with hkept | ⟨-, -, -, hlatched⟩
    · exact absurd (hkept.trans hf) hset
    · exact hlatched

end Sys2Proof.Machine
end

section
/-! SUPPORT. A run is safe while SP has room for its calls (20_memory.md R46; 42_subroutine.md R122, R142). The
idea: with no host command waiting only a call moves SP, by 1, so `SP + k ≤ 65535` for the `k` steps still to come
is kept by every step, and a call that faults would need SP = 65535 with a step still to come. -/

namespace Sys2Proof.Machine

/-- Every state has a next one (R143, log entry 7). -/
theorem step_total (s : State) : ∃ t, step s = .next t := by
  by_cases hx : s.executing = true
  · by_cases hl : s.loopContinues
    · obtain ⟨t, ht⟩ := exec_total (fetchInstr s) s
      exact ⟨t, (step_of_running hx hl).trans ht⟩
    · exact ⟨_, step_of_ending hx hl⟩
  · have hidle : s.executing = false := Bool.eq_false_of_not_eq_true hx
    cases hc : s.commands with
    | nil => exact ⟨s, step_of_idle hidle hc⟩
    | cons c cs => exact ⟨_, step_of_command hidle hc⟩

/-- An instruction leaves SP or moves it up by 1, modulo 2^16. -/
theorem exec_sp_le {i : Instr} {s t : State} (h : exec i s = .next t) : t.sp.toNat ≤ s.sp.toNat + 1 := by
  obtain ⟨-, -, -, hmoves⟩ := registerWriters i s t h
  by_cases hsp : t.sp = s.sp
  · exact hsp ▸ Nat.le_succ _
  · obtain ⟨-, hup⟩ := hmoves hsp
    rw [hup]
    bv_omega

/-- The state a run goes on from: no fault latched, no host command waiting, and room on the stack for `k` calls. -/
structure RoomFor (k : Nat) (s : State) : Prop where
  unlatched : s.fault = none
  noCommand : s.commands = []
  room      : s.sp.toNat + k ≤ 65535

/-- A step uses up the room of one call at most. -/
theorem RoomFor.after_step {k : Nat} {s t : State} (hs : RoomFor (k + 1) s) (h : step s = .next t) :
    RoomFor k t := by
  obtain ⟨hf, hc, hroom⟩ := hs
  have hsp : s.sp ≠ 0xFFFF := ne_top_of_toNat_lt (by omega)
  rcases step_cases h with ⟨-, -, he⟩ | ⟨-, -, rfl⟩ | ⟨c, cs, -, hcons, -⟩ | ⟨-, -, rfl⟩
  · obtain ⟨-, hcmd, -⟩ := exec_keeps_host he
    have hle := exec_sp_le he
    refine ⟨?_, hcmd.trans hc, by omega⟩
    rcases exec_fault_kept_or_set he with hkept | ⟨_, -, htop, -⟩
    · exact hkept.trans hf
    · exact absurd htop hsp
  · exact ⟨hf, hc, show s.sp.toNat + k ≤ 65535 by omega⟩
  · simp [hc] at hcons
  · exact ⟨hf, hc, by omega⟩

/-- `k` steps are safe from a state with room for `k` calls, by induction on `k`. -/
theorem RoomFor.safeRun {k : Nat} {s : State} (hs : RoomFor k s) : SafeRun k s := by
  induction k generalizing s with
  | zero => exact ⟨s, core_run_zero s, hs.unlatched⟩
  | succ k ih =>
    obtain ⟨t, ht⟩ := step_total s
    obtain ⟨u, hrun, hsafe⟩ := ih (hs.after_step ht)
    exact ⟨u, (core_run_succ k ht).trans hrun, hsafe⟩

/-- Settles O59: `RoomFor k` is the statement's three hypotheses. -/
theorem runIsSafeWithStackRoom : Obligations.RunIsSafeWithStackRoom := by
  unfold Obligations.RunIsSafeWithStackRoom
  exact fun k s hf hc hroom => RoomFor.safeRun ⟨hf, hc, hroom⟩

end Sys2Proof.Machine
end

section
/-! SUPPORT. The block's invariant, kept by each kind of step: an instruction, the end of a command, a host command
(20_memory.md R40, R46; 40_fetch_dispatch.md R91; 60_exceptions.md R140, R141). -/

namespace Sys2Proof.Machine

/-- What the fetch decodes is well formed: an unknown opcode has no entry in the map (R66). -/
theorem fetchInstr_wellFormed (s : State) : wellFormed (fetchInstr s) = true := by
  cases h : fetchInstr s with
  | unknownOpcode op =>
    obtain ⟨-, hnone⟩ := fetchInstr_unknown h
    simp [wellFormed, hnone]
  | ldaImm | ldaZp | ldaZpX | jsr => rfl

/-- An instruction keeps memory's canonical form: only a call writes, and below the top both bytes are in range. -/
theorem exec_keeps_mem_wf {i : Instr} {s t : State} (h : exec i s = .next t) (hm : s.mem.wf) : t.mem.wf := by
  rcases exec_next_cases h with ⟨-, n, v, -, -, rfl⟩ | ⟨_, -, hsp, rfl⟩ | ⟨_, -, -, rfl⟩ | ⟨_, -, rfl⟩
  · exact hm
  · exact Memory.write_wf _ (Memory.write_wf_word s.sp _ hm) (sp_inRange hsp)
  · exact hm
  · exact hm

/-- A well-formed instruction keeps the invariant. -/
theorem State.Inv.after_exec {i : Instr} {s t : State} (hs : s.Inv) (hi : wellFormed i = true)
    (h : exec i s = .next t) : t.Inv where
  memory := exec_keeps_mem_wf h hs.memory
  latch := by
    rcases exec_fault_kept_or_set h with hkept | ⟨-, -, -, hset⟩
    · exact hkept ▸ hs.latch
    · exact .inr hset
  diagnostics := by
    rcases exec_diagnostics_kept_or_appended h with hkept | ⟨op, rfl, happ⟩
    · exact hkept ▸ hs.diagnostics
    · have hnone : lookupOpcode op = none := Option.isNone_iff_eq_none.1 hi
      rw [happ]
      exact List.forall_mem_append.2 ⟨hs.diagnostics, List.forall_mem_singleton.2 ⟨rfl, hnone⟩⟩
  responses := by
    obtain ⟨-, -, hresp⟩ := exec_keeps_host h
    exact hresp ▸ hs.responses

/-- What a command that may not go on returns is legal (R91). -/
theorem exitStatus_legal {s : State} (hlatch : legalLatch s.fault) (hl : ¬ s.loopContinues) :
    legalResponse (.executed s.budget (exitStatus s)) := by
  rcases hlatch with hf | hf
  · rw [(exitStatus_eq_done_iff s).2 hf]
    exact Int.not_lt.1 fun hb => hl ⟨hf, hb⟩
  · rw [(exitStatus_eq_faulted_iff s _).2 hf]
    rfl

theorem State.Inv.after_finishExecute {s : State} (hs : s.Inv) (hl : ¬ s.loopContinues) : (finishExecute s).Inv where
  memory := hs.memory
  latch := hs.latch
  diagnostics := hs.diagnostics
  responses := List.forall_mem_append.2
    ⟨hs.responses, List.forall_mem_singleton.2 (exitStatus_legal hs.latch hl)⟩

/-- A host command keeps the invariant: what ReadState returns is canonical because the memory is. -/
theorem State.Inv.after_runCommand {s : State} (hs : s.Inv) (c : Command) : (runCommand c s).Inv := by
  obtain ⟨hmem, hlatch, hdiag, hresp⟩ := hs
  cases c with
  | reset => exact ⟨Memory.wf_nil, .inl rfl, hdiag, hresp⟩
  | writeMem a v => exact ⟨Memory.write_wf_word a v hmem, hlatch, hdiag, hresp⟩
  | setReg r v =>
    obtain ⟨hm, hf, -, hd, -, -, hr⟩ := writeReg_keeps params r v s
    exact ⟨hm.symm ▸ hmem, hf.symm ▸ hlatch, hd.symm ▸ hdiag, hr.symm ▸ hresp⟩
  | execute b => exact ⟨hmem, hlatch, hdiag, hresp⟩
  | readState =>
    refine ⟨hmem, hlatch, hdiag, List.forall_mem_append.2 ⟨hresp, List.forall_mem_singleton.2 ?_⟩⟩
    exact ⟨hmem, hlatch⟩

/-- Settles O55, by the cases of a step. -/
theorem stepKeepsInvariant : Obligations.StepKeepsInvariant := by
  unfold Obligations.StepKeepsInvariant
  intro s t hs ht
  rcases step_cases ht with ⟨-, -, he⟩ | ⟨-, hl, rfl⟩ | ⟨c, cs, -, -, rfl⟩ | ⟨-, -, rfl⟩
  · exact hs.after_exec (fetchInstr_wellFormed s) he
  · exact hs.after_finishExecute hl
  · have htaken : ({ s with commands := cs } : State).Inv := { hs with }
    exact htaken.after_runCommand c
  · exact hs

end Sys2Proof.Machine
end

section
/-! SUPPORT. The decoder and the encoder undo each other, and both agree with the opcode map (30_encoding.md R61 to
R68). The idea: with enough bytes for its opcode the decoder splits the list at that opcode's length, and the
instruction it answers encodes to the first part. -/

namespace Sys2Proof

/-! An opcode byte with no entry in the map -/

theorem decodeBytes_of_no_entry {op : Byte} (b1 b2 : Byte) (h : lookupOpcode op = none) :
    decodeBytes op b1 b2 = .unknownOpcode op := by
  simp only [decodeBytes, h]

theorem instrLength_of_no_entry {op : Byte} (h : lookupOpcode op = none) : instrLength op = 1 := by
  simp only [instrLength, h, Format.length]

theorem opcodeCycles_of_no_entry {op : Byte} (h : lookupOpcode op = none) : opcodeCycles op = 1 := by
  simp only [opcodeCycles, h]

theorem wellFormed_unknownOpcode_iff (op : Byte) :
    wellFormed (.unknownOpcode op) = true ↔ lookupOpcode op = none := Option.isNone_iff_eq_none

/-! The decoder -/

theorem instrLength_pos (op : Byte) : 1 ≤ instrLength op := by
  rw [instrLength_eq]
  split_ifs <;> decide

theorem instrLength_le_three (op : Byte) : instrLength op ≤ 3 := by
  rw [instrLength_eq]
  split_ifs <;> decide

theorem decode_of_short {op : Byte} {operands : List Byte} (h : operands.length + 1 < instrLength op) :
    decode (op :: operands) = .refused (.missingOperand op) := if_pos h

theorem decode_of_enough {op : Byte} {operands : List Byte} (h : instrLength op ≤ operands.length + 1) :
    decode (op :: operands) = .instr (decodeBytes op (operands.getD 0 0) (operands.getD 1 0))
      ((op :: operands).drop (instrLength op)) := by
  have hdrop : (op :: operands).drop (instrLength op) = operands.drop (instrLength op - 1) :=
    List.drop_cons (instrLength_pos op)
  rw [hdrop]
  exact if_neg (Nat.not_lt.2 h)

/-- What the decoder answers is well formed: it falls to the catch-all only without an entry (R66). -/
theorem decodeBytes_wellFormed (op b1 b2 : Byte) : wellFormed (decodeBytes op b1 b2) = true := by
  rw [decodeBytes_eq]
  split_ifs with h1 h2 h3 h4
  · rfl
  · rfl
  · rfl
  · rfl
  · exact (wellFormed_unknownOpcode_iff op).2 ((lookupOpcode_none_iff op).2 ⟨h1, h2, h3, h4⟩)

/-- The instruction of an opcode byte encodes to as many of the bytes read as the opcode's length says (R61, R67). -/
theorem encode_decodeBytes (op b1 b2 : Byte) :
    encode (decodeBytes op b1 b2) = [op, b1, b2].take (instrLength op) := by
  rw [decodeBytes_eq, instrLength_eq]
  split_ifs with h1 h2 h3 h4
  · rw [h1]; rfl
  · rw [h2]; rfl
  · rw [h3]; rfl
  · rw [h4, encode, lowByte_joinBytes, highByte_joinBytes]; rfl
  · rfl

/-- Bytes that are not there are not among the first `n`. -/
theorem take_getD_operands (op : Byte) {n : Nat} {operands : List Byte} (hn : n ≤ 3)
    (h : n ≤ operands.length + 1) :
    [op, operands.getD 0 0, operands.getD 1 0].take n = (op :: operands).take n := by
  rcases operands with _ | ⟨b1, _ | ⟨b2, rest⟩⟩
  · have h1 : n ≤ 1 := h
    interval_cases n <;> rfl
  · have h2 : n ≤ 2 := h
    interval_cases n <;> rfl
  · exact (List.take_append_of_le_length (l₁ := [op, b1, b2]) (l₂ := rest) hn).symm

/-- With enough bytes for its opcode the decoder splits the list at the opcode's length: the instruction it answers
encodes to the first part, and the rest is the second (R67). -/
theorem decode_splits {op : Byte} {operands : List Byte} (h : instrLength op ≤ operands.length + 1) :
    ∃ i, decode (op :: operands) = .instr i ((op :: operands).drop (instrLength op)) ∧
      encode i = (op :: operands).take (instrLength op) ∧ wellFormed i = true := by
  refine ⟨_, decode_of_enough h, ?_, decodeBytes_wellFormed op _ _⟩
  rw [encode_decodeBytes, take_getD_operands op (instrLength_le_three op) h]

/-- Settles O1, by the form of the instruction: the list is long enough for its opcode (`decode_of_enough`), a call's
two bytes join to its target (R64), and a well-formed catch-all has no entry in the map. -/
theorem decodeOfEncodeIsIdentity : Obligations.DecodeOfEncodeIsIdentity := by
  unfold Obligations.DecodeOfEncodeIsIdentity
  intro i rest hwf
  cases i with
  | ldaImm v | ldaZp v | ldaZpX v => exact decode_of_enough (operands := v :: rest) (Nat.le_add_left 2 _)
  | jsr a =>
    have h : decode (encode (.jsr a) ++ rest) = .instr (.jsr (joinBytes (highByte a) (lowByte a))) rest :=
      decode_of_enough (operands := lowByte a :: highByte a :: rest) (Nat.le_add_left 3 _)
    rwa [joinBytes_high_low] at h
  | unknownOpcode op =>
    have hnone := (wellFormed_unknownOpcode_iff op).1 hwf
    have hlen := instrLength_of_no_entry hnone
    have h := decode_of_enough (op := op) (operands := rest) (by omega)
    rwa [decodeBytes_of_no_entry _ _ hnone, hlen] at h

/-- Settles O2: an accepted list is long enough for its opcode, so `decode_splits` says all of it. -/
theorem encodeOfDecodeIsIdentity : Obligations.EncodeOfDecodeIsIdentity := by
  unfold Obligations.EncodeOfDecodeIsIdentity
  intro bs i rest h
  cases bs with
  | nil => cases h
  | cons op operands =>
    rcases Nat.lt_or_ge (operands.length + 1) (instrLength op) with hshort | henough
    · rw [decode_of_short hshort] at h
      cases h
    · obtain ⟨j, hdec, henc, hwf⟩ := decode_splits henough
      obtain ⟨rfl, rfl⟩ := Decoded.instr.inj (hdec.symm.trans h)
      exact ⟨hwf, by rw [henc, List.take_append_drop]⟩

/-- Settles O3: an entry's byte computes to its operation, and every other byte has no entry. -/
theorem decoderHasFiveOutcomes : Obligations.DecoderHasFiveOutcomes := by
  unfold Obligations.DecoderHasFiveOutcomes
  intro op b1 b2
  refine ⟨?_, ?_, ?_, ?_, fun h1 h2 h3 h4 => ?_⟩
  · rintro rfl; rfl
  · rintro rfl; rfl
  · rintro rfl; rfl
  · rintro rfl; exact ⟨joinBytes b2 b1, rfl, joinBytes_toNat b2 b1⟩
  · exact decodeBytes_of_no_entry b1 b2 ((lookupOpcode_none_iff op).2 ⟨h1, h2, h3, h4⟩)

/-- Settles O4: the length is `instrLength`, and `decode_splits` says what the decoder does with enough bytes. -/
theorem lengthFollowsOpcodeByte : Obligations.LengthFollowsOpcodeByte := by
  unfold Obligations.LengthFollowsOpcodeByte
  intro op operands
  refine ⟨instrLength op, ?_, ?_, fun hother => ?_, decode_of_short, fun henough => ?_⟩
  · rintro (rfl | rfl | rfl) <;> rfl
  · rintro rfl; rfl
  · exact instrLength_of_no_entry ((lookupOpcode_none_iff op).2 hother)
  · obtain ⟨i, hdec, henc, -⟩ := decode_splits henough
    exact ⟨i, hdec, henc⟩

/-! The opcode map and the table words -/

/-- Looking up an entry's own byte finds that entry: no earlier one has the byte (R65). -/
theorem lookupOpcode_of_mem : ∀ e ∈ opcodeMap, lookupOpcode e.opcode = some e := by decide

/-- Settles O5: what the lookup finds is in the map with the byte looked up, and `lookupOpcode_of_mem` is the
converse. -/
theorem opcodeMapIsUnambiguous : Obligations.OpcodeMapIsUnambiguous := by
  unfold Obligations.OpcodeMapIsUnambiguous
  refine ⟨rfl, by decide, fun op e => ⟨fun h => ?_, ?_⟩⟩
  · unfold lookupOpcode at h
    have hbyte := List.find?_some h
    exact ⟨List.mem_of_find?_eq_some h, (eq_of_beq hbyte).symm⟩
  · rintro ⟨hmem, rfl⟩
    exact lookupOpcode_of_mem e hmem

/-- Settles O6: six closed words, each computed through the decoder. -/
theorem sampleWordsDecode : Obligations.SampleWordsDecode := by
  unfold Obligations.SampleWordsDecode
  exact ⟨by decide, by decide, by decide, by decide, by decide, by decide⟩

end Sys2Proof
end

section
/-! SUPPORT. The cost of an instruction and the zero-page addresses (30_encoding.md R63, R71). -/

namespace Sys2Proof.Machine

theorem zext16_toNat (v : Byte) : (zext16 v).toNat = v.toNat :=
  BitVec.toNat_setWidth_of_le (by decide)

/-- Settles O15: both addresses extend one byte with zeros, and the indexed byte is the 8-bit sum. -/
theorem zeroPageAddressWraps : Obligations.ZeroPageAddressWraps := by
  unfold Obligations.ZeroPageAddressWraps
  intro zp8 x
  have hzp : (zeroPageAddr zp8).toNat = zp8.toNat := zext16_toNat zp8
  have hzpx : (zeroPageXAddr zp8 x).toNat = (zp8.toNat + x.toNat) % 256 :=
    (zext16_toNat (zp8 + x)).trans (BitVec.toNat_add zp8 x)
  have hbyte := zp8.isLt
  exact ⟨hzp, by omega, hzpx, by omega⟩

/-- Settles O38: the charges of each meaning, added up; a call's are in `exec_jsr_inRange`, and an opcode with no
entry costs the one fetch. -/
theorem chargesAddUpToTableCost : Obligations.ChargesAddUpToTableCost := by
  unfold Obligations.ChargesAddUpToTableCost
  intro i s hwf hroom
  cases i with
  | ldaImm v =>
    have hcost : s.budget - 1 - 1 = s.budget - 2 := by omega
    exact ⟨_, _, _, rfl, rfl, hcost⟩
  | ldaZp zp =>
    have hcost : s.budget - 1 - 1 - 1 = s.budget - 3 := by omega
    exact ⟨_, _, _, rfl, rfl, hcost⟩
  | ldaZpX zp =>
    have hcost : s.budget - 1 - 1 - 1 - 1 = s.budget - 4 := by omega
    exact ⟨_, _, _, rfl, rfl, hcost⟩
  | jsr a => exact ⟨_, _, _, exec_jsr_inRange a (hroom ⟨a, rfl⟩), rfl, rfl⟩
  | unknownOpcode op =>
    have hcost := opcodeCycles_of_no_entry ((wellFormed_unknownOpcode_iff op).1 hwf)
    refine ⟨_, _, _, exec_unknownOpcode op s, rfl, ?_⟩
    rw [hcost]
    rfl

end Sys2Proof.Machine
end

section
/-! SUPPORT. The machine refines the spec's own procedures (40_fetch_dispatch.md R87 to R92): an instruction decoded
first is the spec's Step, and the turns of a running command add up to the spec's Execute. -/

namespace Sys2Proof.Machine

/-! Step: each body of the spec, entered after the opcode fetch, is the machine's meaning of the decoded operands -/

theorem exec_ldaImm_eq_reference (s : State) :
    exec (.ldaImm (s.byteAt (s.pc + 1))) s = .next (Reference.execLdaImm params (consumeByte s)) := rfl

theorem exec_ldaZp_eq_reference (s : State) :
    exec (.ldaZp (s.byteAt (s.pc + 1))) s = .next (Reference.execLdaZp params (consumeByte s)) := rfl

theorem exec_ldaZpX_eq_reference (s : State) :
    exec (.ldaZpX (s.byteAt (s.pc + 1))) s = .next (Reference.execLdaZpX params (consumeByte s)) := rfl

/-- The spec's FetchWord reads the high byte at `(PC + 1) + 1`, the decoder at `PC + 2`. -/
theorem exec_jsr_eq_reference (s : State) :
    exec (.jsr (joinBytes (s.byteAt (s.pc + 2)) (s.byteAt (s.pc + 1)))) s =
      .next (Reference.execJsr params (consumeByte s)) := by
  have hpc : s.pc + 2 = s.pc + 1 + 1 := by bv_omega
  rw [hpc]
  rfl

/-- Decoding a whole instruction and then running it is the spec's Step (R89), whatever the latch and the budget. -/
theorem exec_fetchInstr_eq_reference (s : State) :
    exec (fetchInstr s) s = .next (Reference.step params s) := by
  have hspec : Reference.step params s =
      Reference.dispatch params (s.byteAt s.pc) s.pc (consumeByte s) := rfl
  rw [hspec, Reference.dispatch, fetchInstr, decodeBytes_eq]
  split_ifs
  · exact exec_ldaImm_eq_reference s
  · exact exec_ldaZp_eq_reference s
  · exact exec_ldaZpX_eq_reference s
  · exact exec_jsr_eq_reference s
  · exact exec_unknownOpcode (s.byteAt s.pc) s

/-- Settles O57, by the five outcomes of the decoder (`exec_fetchInstr_eq_reference`). -/
theorem stepRefinesSpecStep : Obligations.StepRefinesSpecStep := by
  unfold Obligations.StepRefinesSpecStep
  intro s hx hf hb
  rw [step_of_running hx ⟨hf, hb⟩, exec_fetchInstr_eq_reference]

/-! Execute: the spec's loop knows nothing of the host's side of the state -/

/-- `s` with another host's side: the running mark and the two streams (log entry 3). -/
def State.withHostSide (s : State) (executing : Bool) (commands : List Command) (responses : List Response) : State :=
  { s with executing := executing, commands := commands, responses := responses }

section HostSide
variable (x : Bool) (cs : List Command) (rs : List Response)

/-- An instruction does the same whatever the host's side. -/
theorem exec_withHostSide {i : Instr} {s t : State} (h : exec i s = .next t) :
    exec i (s.withHostSide x cs rs) = .next (t.withHostSide x cs rs) := by
  cases i with
  | jsr target =>
    by_cases hsp : s.sp = 0xFFFF
    · rw [exec_jsr_outOfRange target hsp] at h
      cases h
      exact exec_jsr_outOfRange target (s := s.withHostSide x cs rs) hsp
    · rw [exec_jsr_inRange target hsp] at h
      cases h
      exact exec_jsr_inRange target (s := s.withHostSide x cs rs) hsp
  | ldaImm | ldaZp | ldaZpX | unknownOpcode => cases h; rfl

theorem Reference.step_withHostSide (s : State) :
    Reference.step params (s.withHostSide x cs rs) = (Reference.step params s).withHostSide x cs rs := by
  have hexec := exec_withHostSide x cs rs (exec_fetchInstr_eq_reference s)
  exact Host.Outcome.next.inj ((exec_fetchInstr_eq_reference (s.withHostSide x cs rs)).symm.trans hexec)

theorem Reference.executeLoop_of_continuing (p : Params) (n : Nat) {s : State} (hl : s.loopContinues) :
    Reference.executeLoop p (n + 1) s = Reference.executeLoop p n (Reference.step p s) := if_pos hl

theorem Reference.executeLoop_of_ending (p : Params) (n : Nat) {s : State} (hl : ¬ s.loopContinues) :
    Reference.executeLoop p n s = s := by
  cases n with
  | zero => rfl
  | succ n => exact if_neg hl

theorem Reference.executeLoop_withHostSide (n : Nat) (s : State) :
    Reference.executeLoop params n (s.withHostSide x cs rs) =
      (Reference.executeLoop params n s).withHostSide x cs rs := by
  induction n generalizing s with
  | zero => rfl
  | succ n ih =>
    by_cases hl : s.loopContinues
    · have hl' : (s.withHostSide x cs rs).loopContinues := hl
      rw [executeLoop_of_continuing _ _ hl, executeLoop_of_continuing _ _ hl', step_withHostSide, ih]
    · have hl' : ¬ (s.withHostSide x cs rs).loopContinues := hl
      rw [executeLoop_of_ending _ _ hl, executeLoop_of_ending _ _ hl']

/-- The command's end reads only the responses of the host's side. -/
theorem finishExecute_withHostSide (s : State) :
    finishExecute (s.withHostSide x cs rs) = { s with
      executing := false, commands := cs,
      responses := rs ++ [.executed s.budget (exitStatus s)] } := rfl

end HostSide

/-- A running command ends where the spec's loop ends, one step after its last instruction. By induction on the
loop's bound, which the budget never exceeds: every instruction charges at least 1 cycle (R92). -/
theorem running_refines_executeLoop {n : Nat} {s : State} (hx : s.executing = true) (hn : s.budget.toNat ≤ n) :
    ∃ k, k ≤ n + 1 ∧ Host.Core.run Sys2Proof.core k s =
      .next (finishExecute (Reference.executeLoop params n s)) := by
  induction n generalizing s with
  | zero =>
    have hl : ¬ s.loopContinues := fun ⟨_, hb⟩ => by omega
    exact ⟨1, le_rfl, core_run_succ 0 (step_of_ending hx hl)⟩
  | succ n ih =>
    by_cases hl : s.loopContinues
    · have he := exec_fetchInstr_eq_reference s
      obtain ⟨hx', -, -⟩ := exec_keeps_host he
      obtain ⟨-, hcharge⟩ := exec_budget_bounds he
      obtain ⟨k, hk, hrun⟩ := ih (hx'.trans hx) (by omega)
      refine ⟨k + 1, by omega, ?_⟩
      rw [Reference.executeLoop_of_continuing _ _ hl, core_run_succ k ((step_of_running hx hl).trans he), hrun]
    · rw [Reference.executeLoop_of_ending _ _ hl]
      exact ⟨1, by omega, core_run_succ 0 (step_of_ending hx hl)⟩

/-- Settles O58: the first step takes the command, the running command ends where the spec's loop ends
(`running_refines_executeLoop`), and that loop is the spec's Execute with another host's side. -/
theorem stepsRefineSpecExecute : Obligations.StepsRefineSpecExecute := by
  unfold Obligations.StepsRefineSpecExecute
  intro s b cs hidle hcmd
  have htaken : step s = .next (({ s with budget := b } : State).withHostSide true cs s.responses) :=
    step_of_command hidle hcmd
  obtain ⟨k, hk, hrun⟩ := running_refines_executeLoop
    (s := ({ s with budget := b } : State).withHostSide true cs s.responses) (n := b.toNat) rfl le_rfl
  rw [Reference.executeLoop_withHostSide, finishExecute_withHostSide] at hrun
  exact ⟨k + 1, by omega, (core_run_succ k htaken).trans hrun⟩

end Sys2Proof.Machine
end

section
/-! SUPPORT. The fetch primitives, the addressing-mode resolvers, and what a step of a running command does
(40_fetch_dispatch.md R80 to R91). -/

namespace Sys2Proof.Machine

/-! The fetch unit -/

/-- Two charges are one charge of their sum (R9). -/
theorem chargeCycles_chargeCycles (m n : Nat) (s : State) :
    chargeCycles m (chargeCycles n s) = chargeCycles (n + m) s := by
  have hsum : s.budget - n - m = s.budget - (n + m : Nat) := by omega
  simp only [chargeCycles, hsum]

/-- Settles O12. -/
theorem fetchByteRule : Obligations.FetchByteRule := by
  unfold Obligations.FetchByteRule
  exact fun s => ⟨memRead_word s.pc s, BitVec.toNat_add s.pc 1, rfl, rfl⟩

/-- Settles O13: the word joins two bytes (`joinBytes_toNat`), and a 16-bit sum is taken modulo 2^16. -/
theorem fetchWordRule : Obligations.FetchWordRule := by
  unfold Obligations.FetchWordRule
  intro s
  have hsecond : (s.pc + 1).toNat = (s.pc.toNat + 1) % 65536 := BitVec.toNat_add s.pc 1
  refine ⟨?_, BitVec.toNat_add s.pc 2, rfl, rfl⟩
  rw [fetchWord, joinBytes_toNat, State.byteAt, hsecond, State.byteAt]

/-- Settles O14. -/
theorem readByteRule : Obligations.ReadByteRule := by
  unfold Obligations.ReadByteRule
  exact fun addr s => ⟨memRead_word addr s, rfl⟩

/-- Settles O16: the addresses are those of `zeroPageAddressWraps`, and the charges add up. -/
theorem addressingModeResolvers : Obligations.AddressingModeResolvers := by
  unfold Obligations.AddressingModeResolvers
  intro s
  obtain ⟨hzp, -, hzpx, -⟩ := zeroPageAddressWraps (s.byteAt s.pc) s.x
  refine ⟨s.byteAt s.pc, rfl, rfl, Prod.ext ?_ ?_, Prod.ext ?_ ?_⟩
  · exact congrArg s.mem.read hzp
  · exact chargeCycles_chargeCycles 1 1 { s with pc := s.pc + 1 }
  · exact congrArg s.mem.read hzpx
  · exact (congrArg (chargeCycles 1) (chargeCycles_chargeCycles 1 1 { s with pc := s.pc + 1 })).trans
      (chargeCycles_chargeCycles 1 2 { s with pc := s.pc + 1 })

/-! Steps of a running command -/

/-- Settles O34: both sides are the one record update of the opcode fetch and the record. -/
theorem unknownOpcodeResult : Obligations.UnknownOpcodeResult := by
  unfold Obligations.UnknownOpcodeResult
  exact exec_unknownOpcode

/-- Settles O35: a byte other than the four has no entry, so the fetch decodes it to the unknown opcode. -/
theorem stepUnknownOpcode : Obligations.StepUnknownOpcode := by
  unfold Obligations.StepUnknownOpcode
  intro s hx hf hb op hop h1 h2 h3 h4
  have hfetch : fetchInstr s = .unknownOpcode op := by
    subst hop
    exact decodeBytes_of_no_entry _ _ ((lookupOpcode_none_iff _).2 ⟨h1, h2, h3, h4⟩)
  rw [step_of_running hx ⟨hf, hb⟩, hfetch]
  exact unknownOpcodeResult op s

/-- Settles O36: three bytes are enough for every opcode, so they decode to the instruction fetched. -/
theorem stepRunsDecodedInstruction : Obligations.StepRunsDecodedInstruction := by
  unfold Obligations.StepRunsDecodedInstruction
  intro s i rest hx hf hb hdec
  rw [decode_of_enough (instrLength_le_three _)] at hdec
  obtain ⟨hfetch, -⟩ := Decoded.instr.inj hdec
  rw [step_of_running hx ⟨hf, hb⟩]
  exact congrArg (exec · s) hfetch

/-- Settles O45: with no budget left the loop's test fails, and the status follows the latch. -/
theorem executeEndsDoneOrFaulted : Obligations.ExecuteEndsDoneOrFaulted := by
  unfold Obligations.ExecuteEndsDoneOrFaulted
  refine fun s hx => ⟨fun hf hb => ?_, fun f hf => step_of_latched hx hf⟩
  have hl : ¬ s.loopContinues := fun ⟨_, hpos⟩ => Int.not_lt.2 hb hpos
  rw [step_of_ending hx hl, finishExecute, (exitStatus_eq_done_iff s).2 hf]

/-- Settles O53, by `step_total`. -/
theorem everyStepAnswersNext : Obligations.EveryStepAnswersNext := by
  unfold Obligations.EveryStepAnswersNext
  exact step_total

end Sys2Proof.Machine
end

section
/-! SUPPORT. The flag rule and the three loads, whole next state by whole next state, first of an instruction and
then of a step (41_load.md R100 to R103). Every load comes down to one state: A and the two flags written, PC past two
bytes, and the mode's charges in one sum (`loadA_next`). -/

namespace Sys2Proof.Machine

/-! Z and N -/

/-- The flag Z of a byte, as a number. -/
theorem beq_zero_iff (v : Byte) : (v == 0) = true ↔ v.toNat = 0 := by
  rw [beq_iff_eq, ← BitVec.toNat_inj]
  rfl

/-- A bit of a byte, as a digit of its number. -/
theorem getLsbD_iff (v : Byte) (k : Nat) : v.getLsbD k = true ↔ v.toNat / 2 ^ k % 2 = 1 := by
  rw [BitVec.getLsbD, Nat.testBit_eq_decide_div_mod_eq, decide_eq_true_iff]

/-- Settles O17: N is bit 7 or bit 6 of A, read as a binary digit (`getLsbD_iff`). -/
theorem updateZNRule : Obligations.UpdateZNRule := by
  unfold Obligations.UpdateZNRule
  refine ⟨rfl, fun p s => ⟨_, _, rfl, beq_zero_iff s.a, fun hbit => ?_, fun hbit => ?_⟩⟩
  · rw [hbit]
    exact getLsbD_iff s.a 7
  · rw [hbit]
    exact getLsbD_iff s.a 6

/-- Bit 7 of a byte is set from 128 on, since no bit lies above it. -/
theorem getLsbD_seven (v : Byte) : v.getLsbD 7 = decide (128 ≤ v.toNat) := by
  have hbyte := v.isLt
  have hbit : v.getLsbD 7 = true ↔ v.toNat / 128 % 2 = 1 := getLsbD_iff v 7
  rw [Bool.eq_iff_iff, hbit, decide_eq_true_iff]
  omega

/-! The loads -/

/-- Opcode and operand fetched: PC past both bytes, 2 cycles. -/
theorem consumeByte_consumeByte (s : State) :
    consumeByte (consumeByte s) = chargeCycles 2 { s with pc := s.pc + 2 } := by
  have hpc : s.pc + 1 + 1 = s.pc + 2 := BitVec.add_assoc s.pc 1 1
  rw [← hpc]
  exact chargeCycles_chargeCycles 1 1 { s with pc := s.pc + 1 + 1 }

/-- What a load leaves, whichever its mode, with the machine's own NEG_BIT (log entry 1). -/
theorem loadA_next (v : Byte) (cycles : Nat) (s : State) :
    loadA params v (chargeCycles cycles { s with pc := s.pc + 2 }) = { s with
      pc := s.pc + 2, a := v, budget := s.budget - cycles,
      flags := { s.flags with z := decide (v = 0), n := decide (128 ≤ v.toNat) } } := by
  rw [← getLsbD_seven]
  rfl

/-- Settles O18: the charges are those of the two fetches. -/
theorem ldaImmediateResult : Obligations.LdaImmediateResult := by
  unfold Obligations.LdaImmediateResult
  intro imm8 s
  rw [exec, execLdaImm, consumeByte_consumeByte, loadA_next]
  rfl

/-- Settles O19: the two fetches and one ReadByte at the operand's own address (`zeroPageAddressWraps`). -/
theorem ldaZeroPageResult : Obligations.LdaZeroPageResult := by
  unfold Obligations.LdaZeroPageResult
  intro zp8 s
  obtain ⟨haddr, -, -, -⟩ := zeroPageAddressWraps zp8 s.x
  have hread : zeroPageOperand zp8 (consumeByte (consumeByte s)) =
      (s.mem.read zp8.toNat, chargeCycles 3 { s with pc := s.pc + 2 }) := by
    rw [consumeByte_consumeByte, zeroPageOperand, readByte, chargeCycles_chargeCycles, State.byteAt, haddr]
    rfl
  rw [exec, execLdaZp, hread, loadA_next]
  rfl

/-- Settles O20: the two fetches, the indexing cycle and one ReadByte at the 8-bit sum (`zeroPageAddressWraps`). -/
theorem ldaZeroPageXResult : Obligations.LdaZeroPageXResult := by
  unfold Obligations.LdaZeroPageXResult
  intro zp8 s
  obtain ⟨-, -, haddr, -⟩ := zeroPageAddressWraps zp8 s.x
  have hread : zeroPageXOperand zp8 (consumeByte (consumeByte s)) =
      (s.mem.read ((zp8.toNat + s.x.toNat) % 256), chargeCycles 4 { s with pc := s.pc + 2 }) := by
    rw [consumeByte_consumeByte, zeroPageXOperand, readByte, chargeCycles_chargeCycles,
      chargeCycles_chargeCycles, State.byteAt, chargeCycles_x, haddr]
    rfl
  refine ⟨_, rfl, ?_⟩
  rw [exec, execLdaZpX, hread, loadA_next]
  rfl

/-! Steps that load -/

/-- The operand's byte: its address is taken modulo 2^16 (R61, R80). -/
theorem byteAt_pc_add_one (s : State) : s.byteAt (s.pc + 1) = s.mem.read ((s.pc.toNat + 1) % 65536) :=
  congrArg s.mem.read (BitVec.toNat_add s.pc 1)

/-- The instruction at PC is the load its opcode byte names, its operand the next byte (R65, R68). -/
theorem fetchInstr_loads (s : State) :
    (s.byteAt s.pc = 0xA9 → fetchInstr s = .ldaImm (s.byteAt (s.pc + 1))) ∧
    (s.byteAt s.pc = 0xA5 → fetchInstr s = .ldaZp (s.byteAt (s.pc + 1))) ∧
    (s.byteAt s.pc = 0xB5 → fetchInstr s = .ldaZpX (s.byteAt (s.pc + 1))) := by
  obtain ⟨himm, hzp, hzpx, -⟩ :=
    decoderHasFiveOutcomes (s.byteAt s.pc) (s.byteAt (s.pc + 1)) (s.byteAt (s.pc + 2))
  exact ⟨himm, hzp, hzpx⟩

/-- Settles O22: the step runs the immediate load (`ldaImmediateResult`) of the next byte. -/
theorem stepLdaImmediate : Obligations.StepLdaImmediate := by
  unfold Obligations.StepLdaImmediate
  intro s hx hf hb hop
  obtain ⟨hfetch, -, -⟩ := fetchInstr_loads s
  refine ⟨_, byteAt_pc_add_one s, ?_⟩
  rw [step_of_running hx ⟨hf, hb⟩, hfetch hop]
  exact ldaImmediateResult (s.byteAt (s.pc + 1)) s

/-- Settles O23: the step runs the zero-page load (`ldaZeroPageResult`) with the next byte as its address. -/
theorem stepLdaZeroPage : Obligations.StepLdaZeroPage := by
  unfold Obligations.StepLdaZeroPage
  intro s hx hf hb hop
  obtain ⟨-, hfetch, -⟩ := fetchInstr_loads s
  rw [step_of_running hx ⟨hf, hb⟩, hfetch hop, ← byteAt_pc_add_one]
  exact ⟨_, rfl, ldaZeroPageResult (s.byteAt (s.pc + 1)) s⟩

/-- Settles O24: the step runs the indexed load (`ldaZeroPageXResult`) with the next byte as its base. -/
theorem stepLdaZeroPageX : Obligations.StepLdaZeroPageX := by
  unfold Obligations.StepLdaZeroPageX
  intro s hx hf hb hop
  obtain ⟨-, -, hfetch⟩ := fetchInstr_loads s
  rw [step_of_running hx ⟨hf, hb⟩, hfetch hop, ← byteAt_pc_add_one]
  exact ldaZeroPageXResult (s.byteAt (s.pc + 1)) s

end Sys2Proof.Machine
end

section
/-! SUPPORT. The subroutine call, of an instruction and of a step (42_subroutine.md R120 to R124; 60_exceptions.md R142,
R170). Both outcomes are one state each (`exec_jsr_inRange`, `exec_jsr_outOfRange`); what is left to say of the first
is how the memory reads after the push. -/

namespace Sys2Proof.Machine

/-! The instruction -/

/-- A read after a call below the top of memory: the return address at SP and SP + 1, low byte first (R120, R121). -/
theorem exec_jsr_mem_read {target : Word} {s t : State} (hsp : s.sp ≠ 0xFFFF)
    (h : exec (.jsr target) s = .next t) (b : Nat) :
    t.mem.read b = if b = s.sp.toNat then lowByte (s.pc + 2)
      else if b = s.sp.toNat + 1 then highByte (s.pc + 2) else s.mem.read b := by
  rw [exec_jsr_inRange target hsp] at h
  cases h
  exact Memory.read_write_two s.mem s.sp.toNat b _ _

theorem exec_jsr_mem_read_sp {target : Word} {s t : State} (hsp : s.sp ≠ 0xFFFF)
    (h : exec (.jsr target) s = .next t) : t.mem.read s.sp.toNat = lowByte (s.pc + 2) := by
  rw [exec_jsr_mem_read hsp h, if_pos rfl]

theorem exec_jsr_mem_read_sp_succ {target : Word} {s t : State} (hsp : s.sp ≠ 0xFFFF)
    (h : exec (.jsr target) s = .next t) : t.mem.read (s.sp.toNat + 1) = highByte (s.pc + 2) := by
  rw [exec_jsr_mem_read hsp h, if_neg (Nat.succ_ne_self _), if_pos rfl]

theorem exec_jsr_mem_read_other {target : Word} {s t : State} (hsp : s.sp ≠ 0xFFFF)
    (h : exec (.jsr target) s = .next t) {b : Nat} (hlow : b ≠ s.sp.toNat) (hhigh : b ≠ s.sp.toNat + 1) :
    t.mem.read b = s.mem.read b := by
  rw [exec_jsr_mem_read hsp h, if_neg hlow, if_neg hhigh]

/-- A call below the top of memory moves SP up by 1 and PC to the target (R120). -/
theorem exec_jsr_sp_pc {target : Word} {s t : State} (hsp : s.sp ≠ 0xFFFF)
    (h : exec (.jsr target) s = .next t) : t.sp = s.sp + 1 ∧ t.pc = target := by
  rw [exec_jsr_inRange target hsp] at h
  cases h
  exact ⟨rfl, rfl⟩

/-- Settles O25: the state is `exec_jsr_inRange`'s, its memory read by `exec_jsr_mem_read`. -/
theorem jsrResult : Obligations.JsrResult := by
  unfold Obligations.JsrResult
  intro target s hsp
  have hcall := exec_jsr_inRange target hsp
  have hret : (s.pc + 2).toNat = (s.pc.toNat + 2) % 65536 := BitVec.toNat_add s.pc 2
  refine ⟨_, hcall, rfl, fun b => ?_⟩
  rw [exec_jsr_mem_read hsp hcall, apply_ite BitVec.toNat, apply_ite BitVec.toNat, lowByte_toNat, highByte_toNat, hret]

/-- Settles O26, by `exec_jsr_outOfRange`. -/
theorem jsrFaultsAtTopOfMemory : Obligations.JsrFaultsAtTopOfMemory := by
  unfold Obligations.JsrFaultsAtTopOfMemory
  exact fun target s hsp => exec_jsr_outOfRange target hsp

/-- Settles O29, by the call's two outcomes. -/
theorem jsrFrame : Obligations.JsrFrame := by
  unfold Obligations.JsrFrame
  intro target s t ht
  by_cases hsp : s.sp = 0xFFFF
  · obtain rfl := Host.Outcome.next.inj ((exec_jsr_outOfRange target hsp).symm.trans ht)
    exact ⟨rfl, rfl, rfl, rfl, rfl, rfl, rfl, rfl, fun hne => absurd hsp hne, fun _ => ⟨rfl, fun _ => rfl⟩⟩
  · have hread (b : Nat) := exec_jsr_mem_read_other hsp ht (b := b)
    obtain rfl := Host.Outcome.next.inj ((exec_jsr_inRange target hsp).symm.trans ht)
    exact ⟨rfl, rfl, rfl, rfl, rfl, rfl, rfl, rfl, fun _ => ⟨rfl, hread⟩, fun htop => absurd htop hsp⟩

/-- Settles O30: the two pushed bytes join to the word they were taken from. -/
theorem returnAddressIsPlusTwo : Obligations.ReturnAddressIsPlusTwo := by
  unfold Obligations.ReturnAddressIsPlusTwo
  intro target s hsp
  have hcall := exec_jsr_inRange target hsp
  refine ⟨_, hcall, ?_⟩
  rw [exec_jsr_mem_read_sp hsp hcall, exec_jsr_mem_read_sp_succ hsp hcall, joinBytes_high_low]

/-- Settles O31: the second call pushes from the first one's SP + 1, so it replaces the high byte pushed there and
leaves the low byte below it. -/
theorem nestedCallsOverlap : Obligations.NestedCallsOverlap := by
  unfold Obligations.NestedCallsOverlap
  intro a b s hroom
  have hsp : s.sp ≠ 0xFFFF := ne_top_of_toNat_lt (Nat.lt_succ_of_lt hroom)
  have hup : (s.sp + 1).toNat = s.sp.toNat + 1 := by bv_omega
  obtain ⟨t, ht⟩ := exec_total (.jsr a) s
  obtain ⟨u, hu⟩ := exec_total (.jsr b) t
  obtain ⟨htsp, htpc⟩ := exec_jsr_sp_pc hsp ht
  have htop : t.sp ≠ 0xFFFF := ne_top_of_toNat_lt (by rw [htsp, hup]; omega)
  obtain ⟨husp, -⟩ := exec_jsr_sp_pc htop hu
  have hlow := exec_jsr_mem_read_sp htop hu
  have hhigh := exec_jsr_mem_read_sp_succ htop hu
  have hbelow := exec_jsr_mem_read_other htop hu (b := s.sp.toNat)
  rw [htsp, hup] at hlow hhigh hbelow
  rw [htpc] at hlow hhigh
  refine ⟨t, u, ht, hu, ?_, exec_jsr_mem_read_sp_succ hsp ht, ?_, hlow, hhigh⟩
  · rw [husp, htsp]
    exact BitVec.add_assoc s.sp 1 1
  · rw [hbelow (by omega) (by omega), exec_jsr_mem_read_sp hsp ht]

/-! The step -/

/-- With 0x20 at PC, the instruction is a call to the little-endian word in the next two bytes (R64, R65). -/
theorem fetchInstr_of_jsr_opcode {s : State} (hop : s.byteAt s.pc = 0x20) :
    ∃ target : Word, fetchInstr s = .jsr target ∧
      target.toNat = (s.mem.read ((s.pc.toNat + 2) % 65536)).toNat * 256 +
        (s.mem.read ((s.pc.toNat + 1) % 65536)).toNat := by
  have hsecond : (s.pc + 2).toNat = (s.pc.toNat + 2) % 65536 := BitVec.toNat_add s.pc 2
  obtain ⟨-, -, -, hjsr, -⟩ :=
    decoderHasFiveOutcomes (s.byteAt s.pc) (s.byteAt (s.pc + 1)) (s.byteAt (s.pc + 2))
  obtain ⟨target, hfetch, htarget⟩ := hjsr hop
  rw [byteAt_pc_add_one, State.byteAt, hsecond] at htarget
  exact ⟨target, hfetch, htarget⟩

/-- Settles O27: the step runs the call (`jsrResult`) to the word fetched. -/
theorem stepJsr : Obligations.StepJsr := by
  unfold Obligations.StepJsr
  intro s hx hf hb hop hsp
  obtain ⟨target, hfetch, htarget⟩ := fetchInstr_of_jsr_opcode hop
  obtain ⟨t, ht, hframe, hread⟩ := jsrResult target s hsp
  refine ⟨target, t, ?_, htarget, hframe, hread⟩
  rw [step_of_running hx ⟨hf, hb⟩, hfetch, ht]

/-- Settles O28: the first step latches the fault, the second meets the latch and ends the command. -/
theorem jsrFaultEndsTheCommand : Obligations.JsrFaultEndsTheCommand := by
  unfold Obligations.JsrFaultEndsTheCommand
  intro s hx hf hb hop hsp
  obtain ⟨target, hfetch, -⟩ := fetchInstr_of_jsr_opcode hop
  have hfault : step s = .next { s with
      pc := s.pc + 3, budget := s.budget - 3, fault := some stackTopFault } := by
    rw [step_of_running hx ⟨hf, hb⟩, hfetch, exec_jsr_outOfRange target hsp]
  exact (core_run_succ 1 hfault).trans (core_run_succ 0 (step_of_latched hx rfl))

end Sys2Proof.Machine
end
